-- ==== Sys2Proof/Word.lean ====
section
/-! DEFINITION. The word types of UHHD-FB: what the spec itself treats as bits (00_scope.md R7, R11; 10_state.md R22). -/

namespace Sys2Proof

/-- One byte of the frame, one colour channel, one coordinate field, one status or cause code (R5, R7, R69, R70). -/
abbrev Byte := BitVec 8

/-- A command word, presented whole on `cmd_data[47:0]` (R42, R60). -/
abbrev CmdWord := BitVec 48

/-- A response word, presented whole on `rsp_data[31:0]` (R42, R68). -/
abbrev RspWord := BitVec 32

/-- A pixel as the 24-bit word `{r, g, b}`: red 23:16, green 15:8, blue 7:0 (R22). -/
abbrev Pixel := BitVec 24

/-- A coordinate that has passed the range check, 0..15 (R82, R101). -/
abbrev Coord := BitVec 4

/-- A cell address or a frame position, 0..255 (R14, R21, R40). -/
abbrev CellAddr := BitVec 8

/-- The quarter-turn count `q = angle / 90`, the value of the rotation register (R14, R23). -/
abbrev Rotation := BitVec 2

end Sys2Proof
end

