-- ==== Sys2Proof/Syntax.lean ====
section
/-! DEFINITION. The command set, one constructor per row of spec/opcode_table.json (30_encoding.md R61, R63). -/

namespace Sys2Proof

/-- A decoded command with its operand fields as R62 and R67 assemble them. Coordinates and angle are the whole unsigned
fields: an illegal value is a legal operand field that execution refuses (R62, R82, R91). -/
inductive Instr where
  /-- Format P, `op = 0x01`; `pix` is `w[23:0] = {r, g, b}` (R80). -/
  | setpix (x y : Byte) (pix : Pixel)
  /-- Format C, `op = 0x02` (R81). -/
  | getpix (x y : Byte)
  /-- Format A, `op = 0x03`; `angle` in degrees (R90). -/
  | setrot (angle : BitVec 16)
  /-- Format N, `op = 0x04` (R109). -/
  | display
  deriving DecidableEq, Repr

end Sys2Proof
end

