-- ==== Sys2Proof/WellFormed.lean ====
section
/-! DEFINITION. Which terms the source form admits: the lines of R73 and R74 with operands as written, and the check that
every operand fits its field. An `Instr` has the field widths in its types, so every `Instr` is well-formed. -/

namespace Sys2Proof

/-- Every value of every operand field is encodable: range checks on `x`, `y` and `angle` are part of execution, after
decoding (R62, R67, R73), so no format constrains a field beyond its width. -/
def Instr.wellFormed : Instr → Bool
  | .setpix _ _ _ => true
  | .getpix _ _ => true
  | .setrot _ => true
  | .display => true

/-- One line of the source form, its operands the natural numbers as written (R73, R74). -/
inductive SourceLine where
  /-- `SETPIX x, y, r, g, b`, and the same with `[r, g, b]`. -/
  | setpix (x y r g b : Nat)
  /-- `SETPIX x, y, #rrggbb`, the six hex digits read as one number. -/
  | setpixHash (x y rgb : Nat)
  | getpix (x y : Nat)
  | setrot (angle : Nat)
  | display
  /-- `.word v`: the value as a command word, for illegal encodings (R74). -/
  | word (v : Nat)
  /-- `RESET mode`: no command word, the platform pulsing `rst` with the strap at 0 (`real`) or 1 (`emulated`) (R74, R75). -/
  | reset (emulated : Bool)
  deriving DecidableEq, Repr

/-- The assembler "refuses operands that do not fit their fields" and accepts every other (R73). -/
def SourceLine.wellFormed : SourceLine → Bool
  | .setpix x y r g b =>
    decide (x < 256) && decide (y < 256) && decide (r < 256) && decide (g < 256) && decide (b < 256)
  | .setpixHash x y rgb => decide (x < 256) && decide (y < 256) && decide (rgb < 2 ^ 24)
  | .getpix x y => decide (x < 256) && decide (y < 256)
  | .setrot angle => decide (angle < 2 ^ 16)
  | .display => true
  | .word v => decide (v < 2 ^ 48)
  | .reset _ => true

end Sys2Proof
end

