-- ==== Sys2Proof/Decode.lean ====
section
/-! DEFINITION. Decoding, total on all 2^48 command words and rejecting by name, then the encoder, both from the formats of
30_encoding.md R61 to R67. -/

namespace Sys2Proof

/-- Why a word is no command (R64). Both are one condition to the host, `IllegalCommand`. -/
inductive Reject where
  /-- `op` is none of `0x01` to `0x04`. -/
  | unassignedOpcode
  /-- A known `op` with a nonzero bit in the field its format calls zero. -/
  | reservedBits
  deriving DecidableEq, Repr

/-! ### The fields of a command word (R61, R62) -/

/-- `w[47:40]`. -/
def opField (w : CmdWord) : Byte := w.extractLsb' 40 8
/-- `w[39:32]`. -/
def xField (w : CmdWord) : Byte := w.extractLsb' 32 8
/-- `w[31:24]`. -/
def yField (w : CmdWord) : Byte := w.extractLsb' 24 8
/-- `w[39:24]`. -/
def angleField (w : CmdWord) : BitVec 16 := w.extractLsb' 24 16
/-- `w[23:0]`: the pixel of format P, the zero field of formats C and A. -/
def lowField (w : CmdWord) : BitVec 24 := w.extractLsb' 0 24
/-- `w[39:0]`: the zero field of format N. -/
def tailField (w : CmdWord) : BitVec 40 := w.extractLsb' 0 40

/-- R67. It looks at `w` alone: no state changes how a word is decoded (R66). -/
def decode (w : CmdWord) : Except Reject Instr :=
  if opField w = 0x01#8 then .ok (.setpix (xField w) (yField w) (lowField w))
  else if opField w = 0x02#8 then
    if lowField w = 0 then .ok (.getpix (xField w) (yField w)) else .error .reservedBits
  else if opField w = 0x03#8 then
    if lowField w = 0 then .ok (.setrot (angleField w)) else .error .reservedBits
  else if opField w = 0x04#8 then
    if tailField w = 0 then .ok .display else .error .reservedBits
  else .error .unassignedOpcode

/-- The instruction read from the low `nbits` bits of `w`, numbered as spec/opcode_table.json numbers them. A command is one
48-bit word presented whole, with no byte order (R42, R60), so the table's bit numbers are the word's; more bits than a word
has are no command (log entry 13). -/
def decodeTableWord (nbits w : Nat) : Option Instr :=
  if nbits ≤ 48 then (decode (BitVec.ofNat 48 (w % 2 ^ nbits))).toOption else none

/-! ### Encoding -/

/-- The word of a command: the formats of R61 read the other way, as R73 writes them out. -/
def encode : Instr → CmdWord
  | .setpix x y pix => 0x01#8 ++ x ++ y ++ pix
  | .getpix x y => 0x02#8 ++ x ++ y ++ 0#24
  | .setrot angle => 0x03#8 ++ angle ++ 0#24
  | .display => 0x04#8 ++ 0#40

/-- One row of R63's opcode map. -/
structure OpcodeRow where
  mnemonic : String
  mask : CmdWord
  pattern : CmdWord
  deriving DecidableEq, Repr

/-- R63's opcode map, row by row. -/
def opcodeMap : List OpcodeRow :=
  [ { mnemonic := "SETPIX", mask := 0xFF0000000000#48, pattern := 0x010000000000#48 },
    { mnemonic := "GETPIX", mask := 0xFF0000FFFFFF#48, pattern := 0x020000000000#48 },
    { mnemonic := "SETROT", mask := 0xFF0000FFFFFF#48, pattern := 0x030000000000#48 },
    { mnemonic := "DISPLAY", mask := 0xFFFFFFFFFFFF#48, pattern := 0x040000000000#48 } ]

/-- R63: "A word is the command of a row exactly when `(w AND mask) = match`." -/
def OpcodeRow.covers (row : OpcodeRow) (w : CmdWord) : Bool := w &&& row.mask == row.pattern

/-- The mnemonic of a command in the opcode map. -/
def Instr.mnemonic : Instr → String
  | .setpix _ _ _ => "SETPIX"
  | .getpix _ _ => "GETPIX"
  | .setrot _ => "SETROT"
  | .display => "DISPLAY"

/-- The command word a source line stands for, if the line is a command with operands that fit (R73, R74): the number
written out from the bytes of R73's table. `RESET` is no command word. -/
def SourceLine.commandWord (line : SourceLine) : Option CmdWord :=
  if line.wellFormed then
    match line with
    | .setpix x y r g b =>
      some (0x01#8 ++ BitVec.ofNat 8 x ++ BitVec.ofNat 8 y ++ BitVec.ofNat 8 r ++ BitVec.ofNat 8 g ++ BitVec.ofNat 8 b)
    | .setpixHash x y rgb => some (encode (.setpix (BitVec.ofNat 8 x) (BitVec.ofNat 8 y) (BitVec.ofNat 24 rgb)))
    | .getpix x y => some (encode (.getpix (BitVec.ofNat 8 x) (BitVec.ofNat 8 y)))
    | .setrot angle => some (encode (.setrot (BitVec.ofNat 16 angle)))
    | .display => some (encode .display)
    | .word v => some (BitVec.ofNat 48 v)
    | .reset _ => none
  else none

end Sys2Proof
end

