-- ==== Sys2Proof/Config.lean ====
section
/-! DEFINITION. What is fixed for one block: the sizes the source settles (R5) and the parameters it leaves open (R6). -/

namespace Sys2Proof

/-- On which address path the rotation transform sits (R6, R97, R98; D1, C1). -/
inductive RotStage where
  | serialize
  | access
  deriving DecidableEq, Repr

/-- The order in which `scan` numbers the physical grid (R6, R95; D2). -/
inductive ScanOrder where
  | rowMajor
  | colMajor
  deriving DecidableEq, Repr

/-- The parameters of R6 that a model must carry as configuration. `EMULATED` is no field here: Reset samples it, so it
stands in State (R26, R160). -/
structure Config where
  /-- `SOF`, the frame-start marker: one byte, the same in every frame (R6, R107). -/
  sof : Byte
  scanOrder : ScanOrder
  rotStage : RotStage
  deriving DecidableEq, Repr

/-- R5: `NCELLS`, the number of cells. -/
abbrev Config.nCells : Nat := 256

/-- R5: `PAYLOAD_LEN`, three bytes for each cell. -/
abbrev Config.payloadLen : Nat := 768

/-- R5: `FRAME_LEN`, the marker and the payload. -/
abbrev Config.frameLen : Nat := 769

/-- The marker's value in the block as delivered. DESIGN CHOICE, log entry 4: the spec leaves it OPEN (R6, D3), so it is a
free value without a body. Safe. -/
opaque Config.sofMarker : Byte

/-- The level of the strap `emulated` during the power-on reset. DESIGN CHOICE, log entry 5: the spec leaves it to the
platform (R6, R26, D18), so it is a free value without a body. Safe. -/
opaque Config.strapAtReset : Bool

/-- The parameter choice the spec decides for UHHD-FB (R6; D1, D2), with the marker left free. Log entry 7. -/
def Config.uhhdfb : Config := { sof := Config.sofMarker, scanOrder := .rowMajor, rotStage := .serialize }

end Sys2Proof
end

