-- ==== Sys2Proof/Machine/AddressDecoder.lean ====
section
/-! DEFINITION. The rotation address decoder (41_rotation.md R93 to R98): pure functions of the arguments shown, for both
`ROT_STAGE` and both `SCAN_ORDER`. -/

namespace Sys2Proof.Machine

/-- R93: `T(q, x, y)`, from a logical to a physical coordinate. `15 - v` never borrows on 4 bits (R101). -/
def rotT (q : Rotation) (x y : Coord) : Coord × Coord :=
  if q = 0b00#2 then (x, y)
  else if q = 0b01#2 then (15#4 - y, x)
  else if q = 0b10#2 then (15#4 - x, 15#4 - y)
  else (y, 15#4 - x)

/-- R94: `Tinv(q, x', y')`, R94's own table. -/
def rotTinv (q : Rotation) (x' y' : Coord) : Coord × Coord :=
  if q = 0b00#2 then (x', y')
  else if q = 0b01#2 then (y', 15#4 - x')
  else if q = 0b10#2 then (15#4 - x', 15#4 - y')
  else (15#4 - y', x')

/-- R95: `scan(x', y')`, from a physical coordinate to a frame position. -/
def scan (o : ScanOrder) (x' y' : Coord) : CellAddr :=
  match o with
  | .rowMajor => y' ++ x'
  | .colMajor => x' ++ y'

/-- R96: `unscan(p)`. -/
def unscan (o : ScanOrder) (p : CellAddr) : Coord × Coord :=
  match o with
  | .rowMajor => (p.extractLsb' 0 4, p.extractLsb' 4 4)
  | .colMajor => (p.extractLsb' 4 4, p.extractLsb' 0 4)

/-- R97: `acc_addr(q, x, y)`, the cell that SETPIX and GETPIX reach. -/
def accAddr (c : Config) (q : Rotation) (x y : Coord) : CellAddr :=
  match c.rotStage with
  | .serialize => scan c.scanOrder x y
  | .access => scan c.scanOrder (rotT q x y).1 (rotT q x y).2

/-- R98: `out_src(q, p)`, the cell whose pixel stands at frame position `p`. -/
def outSrc (c : Config) (q : Rotation) (p : CellAddr) : CellAddr :=
  match c.rotStage with
  | .serialize =>
    let xy := unscan c.scanOrder p
    scan c.scanOrder (rotTinv q xy.1 xy.2).1 (rotTinv q xy.1 xy.2).2
  | .access => p

end Sys2Proof.Machine
end

