-- ==== Sys2Proof/Machine/Operands.lean ====
section
/-! DEFINITION. The operand checks that belong to execution (60_exceptions.md R146 step 3): coordinates (40_pixel_access.md
R82), the angle (41_rotation.md R91), and the channel slices of a pixel (10_state.md R22). -/

namespace Sys2Proof.Machine

/-- R82: the check is on the full 8-bit field, before any truncation. -/
def inRange (v : Byte) : Bool := decide (v < 16#8)

/-- R82: the decoder then uses `v[3:0]`. -/
def coordOf (v : Byte) : Coord := v.extractLsb' 0 4

/-- R91: the complete map from the angle operand, in degrees, to the register. -/
def decodeAngle (angle : BitVec 16) : Option Rotation :=
  if angle = 0#16 then some 0b00#2
  else if angle = 90#16 then some 0b01#2
  else if angle = 180#16 then some 0b10#2
  else if angle = 270#16 then some 0b11#2
  else none

/-- R22: red is bits 23:16. -/
def redOf (v : Pixel) : Byte := v.extractLsb' 16 8
/-- R22: green is bits 15:8. -/
def greenOf (v : Pixel) : Byte := v.extractLsb' 8 8
/-- R22: blue is bits 7:0. -/
def blueOf (v : Pixel) : Byte := v.extractLsb' 0 8

/-- R105: channel `c` of a pixel, 0 red, 1 green, else blue. -/
def channelOf (c : Nat) (v : Pixel) : Byte :=
  if c = 0 then redOf v else if c = 1 then greenOf v else blueOf v

end Sys2Proof.Machine
end

