-- ==== Sys2Proof/Machine/Flags.lean ====
section
/-! DEFINITION. The block has no flags and no sticky status (10_state.md R29). What a command reports in their place is the
status of its response: the conditions of 60_exceptions.md R140, their codes, and the response word (30_encoding.md R68). -/

namespace Sys2Proof.Machine

/-- The error conditions; there are no others (R140). -/
inductive Condition where
  /-- SETPIX or GETPIX with a coordinate outside `[0, 16)` (R141). -/
  | indexOutOfBounds
  /-- SETROT with an angle outside the four legal ones (R142). -/
  | invalidRotation
  /-- DISPLAY, when the sink fails or says success early, with the cause (R143). -/
  | transportError (cause : Byte)
  /-- A word that is no command (R144). -/
  | illegalCommand
  deriving DecidableEq, Repr

/-- R69: the status of success. -/
def statusOk : Byte := 0x00#8

/-- R69, R140: the status code of a condition. -/
def Condition.code : Condition → Byte
  | .indexOutOfBounds => 0x01#8
  | .invalidRotation => 0x02#8
  | .transportError _ => 0x03#8
  | .illegalCommand => 0x04#8

/-- R140, "Recorded in `data`": only a transport error records anything, its cause in `data[7:0]` (R68). -/
def Condition.info : Condition → BitVec 24
  | .indexOutOfBounds => 0
  | .invalidRotation => 0
  | .transportError cause => 0#16 ++ cause
  | .illegalCommand => 0

/-- R68: `rsp[31:0] = {status[7:0], data[23:0]}`. -/
def responseWord (status : Byte) (data : BitVec 24) : RspWord := status ++ data

/-- R68: `status = rsp[31:24]`. -/
def rspStatus (r : RspWord) : Byte := r.extractLsb' 24 8

/-- R68: `data = rsp[23:0]`. -/
def rspData (r : RspWord) : BitVec 24 := r.extractLsb' 0 24

/-- R70: the one cause the block produces itself, a short write (R116). -/
def causeShortWrite : Byte := 0x03#8

end Sys2Proof.Machine
end

