-- ==== Sys2Proof/Machine/State.lean ====
section
/-! DEFINITION. The state of UHHD-FB as plain data (10_state.md R20 to R26), its ports (R30 to R34), why a step can stop,
and the machine right after reset (R36, R160). -/

namespace Sys2Proof.Machine

/-- The states of the display framing state machine (R24, R110). -/
inductive Fsm where
  /-- No frame in flight; commands are accepted. -/
  | idle
  /-- The marker, frame offset 0, is on offer. -/
  | sof
  /-- Payload byte `txIdx`, frame offset `txIdx + 1`, is on offer. -/
  | data
  /-- All 769 bytes were taken; the sink's verdict is awaited. -/
  | result
  deriving DecidableEq, Repr

/-- The pixel store: pairs of cell address and cell, addresses rising, no black entry; a cell that is not listed is black
(R21, R36). The canonical form is `Memory.wf` in Machine/Ops.lean. Log entry 6. -/
abbrev Memory := List (Nat × Pixel)

/-- One sample of the input pins on a rising edge of `clk` (R30, R31, R33, R34). -/
structure Pins where
  rst : Bool
  /-- The mode strap (R30). -/
  emulated : Bool
  cmdValid : Bool
  cmdData : CmdWord
  txReady : Bool
  resValid : Bool
  resOk : Bool
  resCause : Byte
  deriving DecidableEq, Repr

/-- An outside world that does nothing: every pin low. -/
def Pins.quiet : Pins :=
  { rst := false, emulated := false, cmdValid := false, cmdData := 0, txReady := false,
    resValid := false, resOk := false, resCause := 0 }

/-- One frame byte with its marks, as it crosses the transmit port (R33, R71). -/
structure Beat where
  byte : Byte
  first : Bool
  last : Bool
  deriving DecidableEq, Repr

/-- The five kinds of step of R9. What a beat carries is a function of the state (R110), so it is no argument here. -/
inductive Event where
  /-- The platform holds `rst` high with the strap at the given level. -/
  | reset (strap : Bool)
  /-- The block accepts a command word. -/
  | cmd (w : CmdWord)
  /-- The sink takes the byte on offer. -/
  | beat
  | sinkOk
  | sinkFail (cause : Byte)
  deriving DecidableEq, Repr

/-- The machine. The first group is R20's complete table of state; `config` holds the parameters of R6, which no step
writes (log entry 3); the last group is the outside world's side of the ports (log entries 1 and 2). -/
structure State where
  /-- R21: the 256 cells. -/
  cells : Memory
  /-- R23: the rotation register. -/
  rotation : Rotation
  /-- R24. -/
  fsm : Fsm
  /-- R25: the payload byte on offer in DATA; values from 768 are not representable. -/
  txIdx : Fin 768
  /-- R26: the transport mode, true for the emulated sink. -/
  emulated : Bool
  /-- R6: `SOF`, `SCAN_ORDER`, `ROT_STAGE`. -/
  config : Config
  /-- The samples of the input pins to come, the next first. -/
  inputs : List Pins
  /-- The response word the step just taken emitted (R32); none is `rsp_valid = 0`. -/
  rsp : Option RspWord
  /-- The external beat of the step just taken (R33). -/
  beat : Option Beat
  deriving DecidableEq, Repr

/-- Why a step can stop with a fault. The spec gives the block no condition that stops it (R147, R148). -/
inductive Fault where
  /-- Raised by `takeEvent` for an event that R121 marks as one that "cannot happen" in the state it is given. Safe: no
  event that `eventOf` reads from the pins is such a one, so no step of the machine raises it (log entry 12). -/
  | notEnabled
  deriving DecidableEq, Repr

/-- Why an instruction can be refused. -/
inductive Refusal where
  /-- Raised by `exec` for an instruction without a meaning. Safe; here every instruction has its meaning. -/
  | notModelled (mnemonic : String)
  deriving DecidableEq, Repr

/-- What Reset leaves in the block, for a strap level (R36, R160). -/
def State.resetWith (config : Config) (strap : Bool) : State :=
  { cells := [], rotation := 0, fsm := .idle, txIdx := 0, emulated := strap, config := config,
    inputs := [], rsp := none, beat := none }

/-- The machine right after the power-on reset, with nothing presented at any port (R36). -/
def State.reset : State := State.resetWith Config.uhhdfb Config.strapAtReset

end Sys2Proof.Machine
end

