-- ==== Sys2Proof/Machine/Ops.lean ====
section
/-! DEFINITION. The named operations over the store, the registers and the ports: the primitives of 00_scope.md R12. -/

namespace Sys2Proof.Machine

/-! ### The pixel store -/

/-- What a cell that is not listed reads as: `[0,0,0]`, its reset value (R21, R36). -/
def Memory.blank : Pixel := 0

/-- The canonical form from address `lo` on: rising addresses below 256, no black entry. -/
def Memory.wfFrom (lo : Nat) : Memory → Bool
  | [] => true
  | (a, v) :: rest => decide (lo ≤ a) && decide (a < Config.nCells) && decide (v ≠ Memory.blank) && wfFrom (a + 1) rest

/-- The canonical form of the store: equal stores are equal lists. Log entry 6. -/
def Memory.wf (m : Memory) : Bool := m.wfFrom 0

/-- `cells[a]` (R12, R46). -/
def Memory.read (m : Memory) (a : Nat) : Pixel :=
  match m with
  | [] => Memory.blank
  | (b, u) :: rest => if a = b then u else Memory.read rest a

/-- The pair for address `a` in front of a list of higher addresses; a black cell is not listed. -/
def Memory.entry (a : Nat) (v : Pixel) (rest : Memory) : Memory :=
  if v = Memory.blank then rest else (a, v) :: rest

/-- `cells[a] <- v`, all 24 bits at once (R12, R45). -/
def Memory.write (m : Memory) (a : Nat) (v : Pixel) : Memory :=
  match m with
  | [] => Memory.entry a v []
  | (b, u) :: rest =>
    if a < b then Memory.entry a v ((b, u) :: rest)
    else if a = b then Memory.entry a v rest
    else (b, u) :: Memory.write rest a v

/-- `MemRead(a, 1)` (R12, R46): no side effect. -/
def State.readCell (s : State) (a : CellAddr) : Pixel := s.cells.read a.toNat

/-- `MemWrite(a, 1, v)` (R12, R45): whole-word and atomic. -/
def State.writeCell (s : State) (a : CellAddr) (v : Pixel) : State := { s with cells := s.cells.write a.toNat v }

/-! ### Registers -/

/-- `rotation <- q` (R12). -/
def State.setRotation (s : State) (q : Rotation) : State := { s with rotation := q }

/-- `fsm <- f; tx_idx <- i` (R12). -/
def State.setFramer (s : State) (f : Fsm) (i : Fin 768) : State := { s with fsm := f, txIdx := i }

/-! ### Outputs and conditions -/

/-- `respond(status, data)` (R12): emit one response word and end the command. -/
def State.respond (s : State) (status : Byte) (data : BitVec 24) : State :=
  { s with rsp := some (responseWord status data) }

/-- The block's one form of taking an exception, `raise E(info)` (R12, R147): one response word with the condition's status
and data. "Nothing is saved anywhere, no mode changes, no mask changes, control goes nowhere": the store, the rotation and
every other item stay. There is no return from it and nothing to restore (R148). -/
def State.raise (s : State) (e : Condition) : State := s.respond e.code e.info

/-- Put one beat on the transmit port (R33). -/
def State.emitBeat (s : State) (b : Beat) : State := { s with beat := some b }

/-- The end of a frame: back to IDLE with `tx_idx = 0` (R114 to R116). -/
def State.endFrame (s : State) : State := s.setFramer .idle 0

end Sys2Proof.Machine
end

