-- ==== Sys2Proof/Machine/Display.lean ====
section
/-! DEFINITION. Serialization, framing, DISPLAY and the framing state machine (42_display.md R105 to R117). -/

namespace Sys2Proof.Machine

/-! ### The bytes -/

/-- The pixel at frame position `p` (R14, R98). -/
def State.shownPixel (s : State) (p : CellAddr) : Pixel := s.readCell (outSrc s.config s.rotation p)

/-- R105: payload byte `i`, channel `i mod 3` of frame position `i div 3`. -/
def State.payloadByte (s : State) (i : Nat) : Byte :=
  channelOf (i % 3) (s.shownPixel (BitVec.ofNat 8 (i / 3)))

/-- R107: frame byte `k`, the marker and then the payload. -/
def State.frameByte (s : State) (k : Nat) : Byte :=
  match k with
  | 0 => s.config.sof
  | i + 1 => s.payloadByte i

/-- R107: `frame(0), ..., frame(768)`. -/
def State.frame (s : State) : List Byte := (List.range Config.frameLen).map s.frameByte

/-- R71: frame byte `k` with its marks, `first` exactly at offset 0 and `last` exactly at offset 768. -/
def State.frameBeat (s : State) (k : Nat) : Beat :=
  { byte := s.frameByte k, first := k == 0, last := k == 768 }

/-- The 769 beats of a complete frame (R71). -/
def State.frameBeats (s : State) : List Beat := (List.range Config.frameLen).map s.frameBeat

/-! ### The byte on offer (R110) -/

/-- R110: `first = (fsm = SOF)`. -/
def State.markFirst (s : State) : Bool := s.fsm == .sof

/-- R110: `last = (fsm = DATA and tx_idx = 767)`. -/
def State.markLast (s : State) : Bool := s.fsm == .data && s.txIdx == 767

/-- R110: the marker in SOF, `payload(tx_idx)` in DATA, nothing in IDLE and RESULT. -/
def State.offered (s : State) : Option Byte :=
  match s.fsm with
  | .sof => some s.config.sof
  | .data => some (s.payloadByte s.txIdx.val)
  | .idle => none
  | .result => none

/-- A byte goes to the real sink over the transmit port; with the emulated sink the beat is internal (R33, R120). -/
def State.sendBeat (s : State) (b : Byte) : State :=
  if s.emulated then s else s.emitBeat { byte := b, first := s.markFirst, last := s.markLast }

/-! ### The command -/

/-- R109, the accepting step: the frame starts at its marker, and there is no response yet. -/
def execDisplay (s : State) : Host.Outcome State Fault Refusal := .next (s.setFramer .sof 0)

/-! ### The framer -/

/-- R112, R113: the sink takes the byte on offer. No byte is on offer in IDLE and RESULT, where R121 has no such step. -/
def takeBeat (s : State) : Host.Outcome State Fault Refusal :=
  match s.fsm with
  | .sof => .next ((s.sendBeat s.config.sof).setFramer .data 0)
  | .data =>
    let sent := s.sendBeat (s.payloadByte s.txIdx.val)
    if h : s.txIdx.val < 767 then .next (sent.setFramer .data ⟨s.txIdx.val + 1, by omega⟩)
    else .next (sent.setFramer .result 0)
  | .idle => .fault .notEnabled
  | .result => .fault .notEnabled

/-- The sink says success: believed only in RESULT (R114), a short write before the last byte (R116), ignored in IDLE
(R117). -/
def takeSinkOk (s : State) : Host.Outcome State Fault Refusal :=
  match s.fsm with
  | .idle => .next s
  | .sof => .next ((s.raise (.transportError causeShortWrite)).endFrame)
  | .data => .next ((s.raise (.transportError causeShortWrite)).endFrame)
  | .result => .next ((s.respond statusOk 0).endFrame)

/-- The sink says failure with its cause: the frame in flight ends (R114, R115); ignored in IDLE (R117). -/
def takeSinkFail (cause : Byte) (s : State) : Host.Outcome State Fault Refusal :=
  match s.fsm with
  | .idle => .next s
  | .sof => .next ((s.raise (.transportError cause)).endFrame)
  | .data => .next ((s.raise (.transportError cause)).endFrame)
  | .result => .next ((s.raise (.transportError cause)).endFrame)

end Sys2Proof.Machine
end

