-- ==== Sys2Proof/Machine/PixelAccess.lean ====
section
/-! DEFINITION. SETPIX and GETPIX (40_pixel_access.md R80 to R85). Acceptance is checked before a meaning is called
(60_exceptions.md R146 step 1; Machine/Ports.lean, Machine/Step.lean; log entry 11). -/

namespace Sys2Proof.Machine

/-- The cell that coordinates in range address, by the state's parameters and rotation; none where R82's check fails. -/
def State.cellFor (s : State) (x y : Byte) : Option CellAddr :=
  if inRange x && inRange y then some (accAddr s.config s.rotation (coordOf x) (coordOf y)) else none

/-- R80. -/
def execSetpix (x y : Byte) (pix : Pixel) (s : State) : Host.Outcome State Fault Refusal :=
  match s.cellFor x y with
  | none => .next (s.raise .indexOutOfBounds)
  | some a => .next ((s.writeCell a pix).respond statusOk 0)

/-- R81. -/
def execGetpix (x y : Byte) (s : State) : Host.Outcome State Fault Refusal :=
  match s.cellFor x y with
  | none => .next (s.raise .indexOutOfBounds)
  | some a => .next (s.respond statusOk (s.readCell a))

end Sys2Proof.Machine
end

