-- ==== Sys2Proof/Machine/RotationControl.lean ====
section
/-! DEFINITION. SETROT (41_rotation.md R90 to R92). -/

namespace Sys2Proof.Machine

/-- R90: the register takes the quarter-turn count of a legal angle; the store is never touched (R92). -/
def execSetrot (angle : BitVec 16) (s : State) : Host.Outcome State Fault Refusal :=
  match decodeAngle angle with
  | none => .next (s.raise .invalidRotation)
  | some q => .next ((s.setRotation q).respond statusOk 0)

end Sys2Proof.Machine
end

