-- ==== Sys2Proof/Machine/Dispatch.lean ====
section
/-! DEFINITION. One arm per constructor of Instr, each one direct call of the instruction's meaning. -/

namespace Sys2Proof.Machine

def exec (i : Instr) (s : State) : Host.Outcome State Fault Refusal :=
  match i with
  | .setpix x y pix => Sys2Proof.Machine.execSetpix x y pix s
  | .getpix x y => Sys2Proof.Machine.execGetpix x y s
  | .setrot angle => Sys2Proof.Machine.execSetrot angle s
  | .display => Sys2Proof.Machine.execDisplay s

end Sys2Proof.Machine
end

