-- ==== Sys2Proof/Machine/Ports.lean ====
section
/-! DEFINITION. The output pins as functions of the state and the pins sampled (10_state.md R31 to R34), and which step of
R9 a sample of the pins amounts to (42_display.md R111, R119, R120, R126). -/

namespace Sys2Proof.Machine

/-- R31: `cmd_ready = 1` exactly when `fsm = IDLE` and `rst` is low. -/
def cmdReady (p : Pins) (s : State) : Bool := s.fsm == .idle && !p.rst

/-- R33: `tx_valid = 1` exactly when `EMULATED = 0` and `fsm` is SOF or DATA; and 0 while `rst` is high (R160). DEDUCED, log
entry 8. -/
def txValid (p : Pins) (s : State) : Bool := !p.rst && !s.emulated && (s.fsm == .sof || s.fsm == .data)

/-- R33, R110: the byte on the transmit port, where one is on offer there. -/
def txData (p : Pins) (s : State) : Option Byte := if txValid p s then s.offered else none

/-- R33: `tx_first = 1` exactly in state SOF. -/
def txFirst (s : State) : Bool := s.markFirst

/-- R33: `tx_last = 1` exactly in state DATA with `tx_idx = 767`. -/
def txLast (s : State) : Bool := s.markLast

/-- R32: `rsp_valid` after a step. -/
def rspValid (s : State) : Bool := s.rsp.isSome

/-- R34, R72: the verdict the real sink delivers in a cycle with `res_valid = 1`; `res_cause` is ignored when `res_ok = 1`. -/
def verdict (p : Pins) : Event := if p.resOk then .sinkOk else .sinkFail p.resCause

/-- R120: the emulated sink takes every offered byte at once and, in RESULT, says success. -/
def emulatedSink (s : State) : Option Event :=
  match s.fsm with
  | .idle => none
  | .sof => some .beat
  | .data => some .beat
  | .result => some .sinkOk

/-- What the sink does in this cycle: the emulated sink by itself, with its ports not looked at (R34, R120); the real sink
as its pins say, a verdict before a beat (R126). -/
def sinkEvent (p : Pins) (s : State) : Option Event :=
  if s.emulated then emulatedSink s
  else if p.resValid then some (verdict p)
  else if txValid p s && p.txReady then some .beat
  else none

/-- The one step that happens in a cycle with these pins, if any: Reset above all (R30, R160); a command where one is
presented and the block is ready (R31), whatever the verdict port shows, since it is ignored in IDLE (R34, R117); else the
sink's (R111). -/
def eventOf (p : Pins) (s : State) : Option Event :=
  if p.rst then some (.reset p.emulated)
  else if p.cmdValid && cmdReady p s then some (.cmd p.cmdData)
  else sinkEvent p s

/-- R121: which steps can happen in a state. A verdict in IDLE can, and is ignored; with the emulated sink no failure and no
early success ever comes (R120). -/
def enabled (e : Event) (s : State) : Bool :=
  match e with
  | .reset _ => true
  | .cmd _ => s.fsm == .idle
  | .beat => s.fsm == .sof || s.fsm == .data
  | .sinkOk => s.fsm == .idle || s.fsm == .result || !s.emulated
  | .sinkFail _ => s.fsm == .idle || !s.emulated

end Sys2Proof.Machine
end

