-- ==== Sys2Proof/Machine/Events.lean ====
section
/-! DEFINITION. What each of the five kinds of step of 00_scope.md R9 does to the state: 42_display.md R121's table. -/

namespace Sys2Proof.Machine

/-- R160: everything the block holds goes to its reset value and the strap is sampled; no response. The parameters and the
outside world are not the block's to reset. -/
def State.applyReset (s : State) (strap : Bool) : State :=
  { State.resetWith s.config strap with inputs := s.inputs }

/-- `Cmd(w)`: decode first, and an illegal word raises IllegalCommand with no operand examined (R64, R146); else execute. -/
def runWord (w : CmdWord) (s : State) : Host.Outcome State Fault Refusal :=
  match decode w with
  | .error _ => .next (s.raise .illegalCommand)
  | .ok i => exec i s

/-- The effect of an event. One that cannot happen in the state (R121's dashes) is answered by a fault of its own. -/
def takeEvent (e : Event) (s : State) : Host.Outcome State Fault Refusal :=
  if enabled e s then
    match e with
    | .reset strap => .next (s.applyReset strap)
    | .cmd w => runWord w s
    | .beat => takeBeat s
    | .sinkOk => takeSinkOk s
    | .sinkFail cause => takeSinkFail cause s
  else .fault .notEnabled

/-- The state as a cycle finds it once its pins are sampled: the next sample taken off, and the one-cycle outputs of the
cycle before gone (R32, R33). -/
def State.beginCycle (s : State) : State := { s with inputs := s.inputs.tail, rsp := none, beat := none }

/-- The pins sampled in the next cycle; when nothing more is said of the outside world, it does nothing. Log entry 1. -/
def State.nextPins (s : State) : Pins := s.inputs.headD Pins.quiet

/-- One rising edge of `clk` with the given pins: at most one of the steps of R9 happens. A cycle in which nothing happens
outside, and in which the block has no step of its own, changes nothing (R169: no completing step is invented). -/
def runCycle (p : Pins) (s : State) : Host.Outcome State Fault Refusal :=
  match eventOf p s with
  | none => .next s
  | some e => takeEvent e s

/-- The pins of a cycle in which the host presents a command word and nothing else happens outside. -/
def Pins.present (w : CmdWord) : Pins := { Pins.quiet with cmdValid := true, cmdData := w }

/-- The pins of a cycle in which the platform holds `rst` high with the strap at the given level (R160, R161). -/
def Pins.resetting (strap : Bool) : Pins := { Pins.quiet with rst := true, emulated := strap }

/-- `s` with the command word presented in the very next cycle and the block ready for it. The block fetches nothing (R28,
R52): a program comes from outside over the command port, and a word is accepted only with `fsm = IDLE` (R31), so that is
what this sets (log entry 9). In an idle state that satisfies R35 it adds the sample and changes nothing else. -/
def State.presentWord (s : State) (w : CmdWord) : State :=
  { s.setFramer .idle 0 with inputs := Pins.present w :: s.inputs }

end Sys2Proof.Machine
end

