-- ==== Sys2Proof/Machine/Step.lean ====
section
/-! DEFINITION. One step of the machine: one clock cycle, with the next sample of the input pins. -/

namespace Sys2Proof.Machine

/-- Sample the pins and do what they amount to. -/
def step (s : State) : Host.Outcome State Fault Refusal := runCycle s.nextPins s.beginCycle

/-- `s` with the table's word, its low `nbits` bits, presented where the next step takes its command from. -/
def State.withFetchWord (s : State) (nbits w : Nat) : State := s.presentWord (BitVec.ofNat 48 (w % 2 ^ nbits))

end Sys2Proof.Machine
end

