-- ==== Sys2Proof/Machine/Assembler.lean ====
section
/-! DEFINITION. The textual form of commands (30_encoding.md R73, R74): one line of text to a source line, and a source line
to what it puts on the pins for one cycle. Log entry 14 for the white space R73 does not mention. -/

namespace Sys2Proof.Machine.Text

/-- A space or a tab. -/
def isBlank (c : Char) : Bool := c == ' ' || c == '\t'

/-- R73: `;` starts a comment. -/
def stripComment (cs : List Char) : List Char := cs.takeWhile (fun c => c != ';')

/-- White space at either end taken off. -/
def trim (cs : List Char) : List Char := ((cs.dropWhile isBlank).reverse.dropWhile isBlank).reverse

/-- R73: operands are separated by commas. -/
def splitCommas : List Char → List (List Char)
  | [] => [[]]
  | c :: rest =>
    if c == ',' then [] :: splitCommas rest
    else match splitCommas rest with
      | [] => [[c]]
      | piece :: more => (c :: piece) :: more

/-- The value of a digit in base ten. -/
def decDigit (c : Char) : Option Nat :=
  if '0' ≤ c ∧ c ≤ '9' then some (c.toNat - '0'.toNat) else none

/-- The value of a digit in base sixteen. -/
def hexDigit (c : Char) : Option Nat :=
  if '0' ≤ c ∧ c ≤ '9' then some (c.toNat - '0'.toNat)
  else if 'a' ≤ c ∧ c ≤ 'f' then some (c.toNat - 'a'.toNat + 10)
  else if 'A' ≤ c ∧ c ≤ 'F' then some (c.toNat - 'A'.toNat + 10)
  else none

/-- The number that digits write, most significant first. -/
def digits (base : Nat) (digit : Char → Option Nat) (acc : Nat) : List Char → Option Nat
  | [] => some acc
  | c :: rest => (digit c).bind fun d => digits base digit (base * acc + d) rest

/-- R73: numbers are decimal or `0x` hexadecimal. -/
def number (cs : List Char) : Option Nat :=
  match cs with
  | [] => none
  | ['0', 'x'] => none
  | '0' :: 'x' :: rest => digits 16 hexDigit 0 rest
  | _ => digits 10 decDigit 0 cs

/-- R74: `#rrggbb`, exactly six hex digits. -/
def hashColour (cs : List Char) : Option Nat :=
  match cs with
  | '#' :: rest => if rest.length = 6 then digits 16 hexDigit 0 rest else none
  | _ => none

/-- R74: the first and last operand of a bracketed triple without their brackets; operands without brackets as they are. -/
def unbracket (r b : List Char) : Option (List Char × List Char) :=
  match r, b.reverse with
  | '[' :: r', ']' :: b' => some (trim r', trim b'.reverse)
  | '[' :: _, _ => none
  | _, ']' :: _ => none
  | _, _ => some (r, b)

/-- The operands of SETPIX in its three spellings (R73, R74). -/
def setpixLine (ops : List (List Char)) : Option SourceLine :=
  match ops with
  | [x, y, r, g, b] => do
    let rb ← unbracket r b
    some (.setpix (← number x) (← number y) (← number rb.1) (← number g) (← number rb.2))
  | [x, y, colour] => do some (.setpixHash (← number x) (← number y) (← hashColour colour))
  | _ => none

/-- One mnemonic with its operands (R73, R74). -/
def lineOf (mnemonic : List Char) (ops : List (List Char)) : Option SourceLine :=
  if mnemonic = "SETPIX".toList then setpixLine ops
  else if mnemonic = "GETPIX".toList then
    match ops with
    | [x, y] => do some (.getpix (← number x) (← number y))
    | _ => none
  else if mnemonic = "SETROT".toList then
    match ops with
    | [angle] => do some (.setrot (← number angle))
    | _ => none
  else if mnemonic = "DISPLAY".toList then
    match ops with
    | [] => some .display
    | _ => none
  else if mnemonic = ".word".toList then
    match ops with
    | [v] => do some (.word (← number v))
    | _ => none
  else if mnemonic = "RESET".toList then
    match ops with
    | [mode] =>
      if mode = "real".toList then some (.reset false)
      else if mode = "emulated".toList then some (.reset true)
      else none
    | _ => none
  else none

/-- One line of text; none where it is no line of the form. -/
def parseLine (cs : List Char) : Option SourceLine :=
  let body := trim (stripComment cs)
  let mnemonic := body.takeWhile (fun c => !isBlank c)
  let rest := trim (body.dropWhile (fun c => !isBlank c))
  lineOf mnemonic (if rest.isEmpty then [] else (splitCommas rest).map trim)

end Sys2Proof.Machine.Text

namespace Sys2Proof.Machine

/-- What a source line puts on the pins for one cycle: its command word on the command port, or the pulse of `rst` that
`RESET mode` stands for (R73 to R75). -/
def stimulus (line : SourceLine) : Option Pins :=
  match line with
  | .reset strap => some (Pins.resetting strap)
  | _ => line.commandWord.map Pins.present

end Sys2Proof.Machine
end

