-- ==== Sys2Proof/Safety.lean ====
section
/-! DEFINITION. What claims are stated in: the invariant of 10_state.md R35, a finished run and the observable behaviour of
a run (00_scope.md R10), and one DISPLAY seen as a transaction (42_display.md R122). -/

namespace Sys2Proof.Machine

/-- R35: (a) by the canonical form of the store, every cell a 24-bit word at one of the 256 addresses; (b) by the type of
`rotation`; (c) `fsm ≠ DATA` implies `tx_idx = 0` (the bound 767 is in the type). Item (d) speaks of a step, not of a
state. -/
def State.Inv (s : State) : Prop := s.cells.wf = true ∧ (s.fsm ≠ .data → s.txIdx = 0)

/-- R14: a frame is in flight. -/
def State.busy (s : State) : Bool := s.fsm != .idle

/-- R10: the host has no more commands to issue and no frame is in flight. -/
def State.finished (s : State) : Bool := s.fsm == .idle && s.inputs.all (fun p => !p.cmdValid)

/-- The command word that the next step accepts, if it accepts one (R9, R31). -/
def State.accepts (s : State) : Option CmdWord :=
  match eventOf s.nextPins s with
  | some (.cmd w) => some w
  | _ => none

/-- The state after `n` steps. A step that stops leaves the state; none does (Obligations.EveryStepAnswersNext). -/
def State.after : Nat → State → State
  | 0, s => s
  | n + 1, s =>
    match step s with
    | .next t => State.after n t
    | _ => s

/-- The external beats of the next `n` steps, in order (R10, R71). -/
def State.beats : Nat → State → List Beat
  | 0, _ => []
  | n + 1, s =>
    match step s with
    | .next t => t.beat.toList ++ State.beats n t
    | _ => []

/-- The response words of the next `n` steps, in order (R10, R32). -/
def State.responses : Nat → State → List RspWord
  | 0, _ => []
  | n + 1, s =>
    match step s with
    | .next t => t.rsp.toList ++ State.responses n t
    | _ => []

/-- The command words that the next `n` steps accept, in order. -/
def State.acceptances : Nat → State → List CmdWord
  | 0, _ => []
  | n + 1, s =>
    match step s with
    | .next t => s.accepts.toList ++ State.acceptances n t
    | _ => []

/-- What one DISPLAY in flight comes to within `n` steps: how many steps were followed, up to and with the one that answers
it, the external beats in them, the response if it came, and the state then (R122). -/
structure Transaction where
  steps : Nat
  beats : List Beat
  response : Option RspWord
  final : State
  deriving DecidableEq, Repr

/-- Follow the frame in flight for at most `n` steps, to its response (R122). -/
def State.transact : Nat → State → Transaction
  | 0, s => { steps := 0, beats := [], response := none, final := s }
  | n + 1, s =>
    match step s with
    | .next t =>
      match t.rsp with
      | some r => { steps := 1, beats := t.beat.toList, response := some r, final := t }
      | none =>
        let rest := State.transact n t
        { rest with steps := rest.steps + 1, beats := t.beat.toList ++ rest.beats }
    | _ => { steps := 0, beats := [], response := none, final := s }

end Sys2Proof.Machine
end

