-- ==== Sys2Proof/Certificates/Slice0/Obligations.lean ====
section
/-! DEFINITION. The statements for the provers, in the order of OBLIGATIONS.json. Each docstring names the rule it
formalises. -/

open Sys2Proof Sys2Proof.Machine

/-! ### Encoding -/

/-- R61, R67: no bit of an encoding is dropped. -/
def Obligations.DecodeEncodeRoundTrip : Prop :=
  ∀ i : Instr, i.wellFormed = true → decode (encode i) = .ok i

/-- R61, R64, R67: a word has one meaning, so the word of what it decodes to is the word itself. -/
def Obligations.EncodeDecodeRoundTrip : Prop :=
  ∀ (w : CmdWord) (i : Instr), decode w = .ok i → encode i = w

/-- R63: the mask and match of a row say exactly which words are its command, and the rows are disjoint. -/
def Obligations.OpcodeMapSaysWhatDecodes : Prop :=
  (∀ row ∈ opcodeMap, ∀ w : CmdWord,
    row.covers w = true ↔ ∃ i : Instr, decode w = .ok i ∧ i.mnemonic = row.mnemonic) ∧
  (∀ row ∈ opcodeMap, ∀ row' ∈ opcodeMap, ∀ w : CmdWord,
    row.covers w = true → row'.covers w = true → row = row')

/-- R64: which words are illegal, and what accepting one does. -/
def Obligations.IllegalWordsRaiseIllegalCommand : Prop :=
  ∀ w : CmdWord,
    ((∃ e, decode w = .error e) ↔
      (opField w = 0x00#8 ∨ 0x05#8 ≤ opField w ∨
        ((opField w = 0x02#8 ∨ opField w = 0x03#8) ∧ lowField w ≠ 0) ∨ (opField w = 0x04#8 ∧ tailField w ≠ 0))) ∧
    (∀ s : State, s.accepts = some w → (∃ e, decode w = .error e) →
      ∃ t, step s = .next t ∧ t.rsp = some 0x04000000#32 ∧ t.beat = none ∧
        t.cells = s.cells ∧ t.rotation = s.rotation ∧ t.fsm = s.fsm ∧ t.txIdx = s.txIdx ∧
        t.emulated = s.emulated ∧ t.config = s.config)

/-- Words written out from R61's formats (95_test_vectors.md, table V-D). -/
def Obligations.DecodeOfWrittenOutWords : Prop :=
  decode 0x0103050A141E#48 = .ok (.setpix 3 5 0x0A141E#24) ∧
  decode 0x01FFFFFFFFFF#48 = .ok (.setpix 255 255 0xFFFFFF#24) ∧
  decode 0x0200FF000000#48 = .ok (.getpix 0 255) ∧
  decode 0x020305800000#48 = .error .reservedBits ∧
  decode 0x03010E000000#48 = .ok (.setrot 270) ∧
  decode 0x030168000000#48 = .ok (.setrot 360) ∧
  decode 0x040000000000#48 = .ok .display ∧
  decode 0x040100000000#48 = .error .reservedBits ∧
  decode 0x000000000000#48 = .error .unassignedOpcode ∧
  decode 0x050000000000#48 = .error .unassignedOpcode

/-- R73, R74: the word of a source line, as a number written from the bytes of R73's table, decodes to the command the line
names; a line is refused exactly when an operand does not fit; `RESET` is a pulse of `rst` and no word. -/
def Obligations.SourceLinesAssemble : Prop :=
  (∀ x y r g b : Nat, (SourceLine.setpix x y r g b).wellFormed = true →
    ∃ w, (SourceLine.setpix x y r g b).commandWord = some w ∧
      w.toNat = ((((0x01 * 256 + x) * 256 + y) * 256 + r) * 256 + g) * 256 + b ∧
      decode w = .ok (.setpix (BitVec.ofNat 8 x) (BitVec.ofNat 8 y) (BitVec.ofNat 24 ((r * 256 + g) * 256 + b)))) ∧
  (∀ x y rgb : Nat, (SourceLine.setpixHash x y rgb).wellFormed = true →
    (SourceLine.setpixHash x y rgb).commandWord =
      (SourceLine.setpix x y (rgb / 65536) (rgb / 256 % 256) (rgb % 256)).commandWord) ∧
  (∀ x y : Nat, (SourceLine.getpix x y).wellFormed = true →
    ∃ w, (SourceLine.getpix x y).commandWord = some w ∧ w.toNat = ((0x02 * 256 + x) * 256 + y) * 2 ^ 24 ∧
      decode w = .ok (.getpix (BitVec.ofNat 8 x) (BitVec.ofNat 8 y))) ∧
  (∀ angle : Nat, (SourceLine.setrot angle).wellFormed = true →
    ∃ w, (SourceLine.setrot angle).commandWord = some w ∧ w.toNat = (0x03 * 65536 + angle) * 2 ^ 24 ∧
      decode w = .ok (.setrot (BitVec.ofNat 16 angle))) ∧
  (∃ w, SourceLine.display.commandWord = some w ∧ w.toNat = 0x04 * 2 ^ 40 ∧ decode w = .ok .display) ∧
  (∀ v : Nat, (SourceLine.word v).wellFormed = true →
    ∃ w, (SourceLine.word v).commandWord = some w ∧ w.toNat = v) ∧
  (∀ line : SourceLine, (stimulus line).isSome = line.wellFormed) ∧
  (∀ mode : Bool, stimulus (.reset mode) = some (Pins.resetting mode))

/-! ### The step and the ports -/

/-- R9, R31, R67: a step that accepts a word runs the instruction the word decodes to, on the state with the sample taken
off and the outputs of the cycle before gone. A verdict in the same cycle is not ruled out: that it is ignored (R34, R117) is
the model's reading, log entry 15 (DEDUCED). -/
def Obligations.StepRunsTheDecodedCommand : Prop :=
  ∀ (s : State) (p : Pins) (rest : List Pins) (i : Instr),
    s.fsm = .idle → s.inputs = p :: rest → p.rst = false → p.cmdValid = true → decode p.cmdData = .ok i →
    step s = exec i { s with inputs := rest, rsp := none, beat := none }

/-- R147, R148: no condition and no input stops the block. -/
def Obligations.EveryStepAnswersNext : Prop := ∀ s : State, ∃ t, step s = .next t

/-- R31: a word is accepted exactly in a cycle with `cmd_valid = 1` and `cmd_ready = 1`; `cmd_ready = 1` exactly when
`fsm = IDLE` and `rst` is low; and a word presented while `cmd_ready = 0` has no effect, whatever it is. -/
def Obligations.CommandPortHandshake : Prop :=
  (∀ (p : Pins) (s : State), cmdReady p s = true ↔ (s.fsm = .idle ∧ p.rst = false)) ∧
  (∀ (s : State) (w : CmdWord),
    s.accepts = some w ↔ (s.nextPins.cmdValid = true ∧ cmdReady s.nextPins s = true ∧ w = s.nextPins.cmdData)) ∧
  (∀ (s : State) (p : Pins) (rest : List Pins) (valid : Bool) (w : CmdWord), cmdReady p s = false →
    step { s with inputs := p :: rest } =
      step { s with inputs := { p with cmdValid := valid, cmdData := w } :: rest })

/-- R33, R110: what the transmit port offers, and that a beat crosses it exactly when the sink is ready and no verdict comes
in that cycle. The clause about `rst` rests on log entry 8. -/
def Obligations.TransmitPortHandshake : Prop :=
  (∀ (p : Pins) (s : State), p.rst = false →
    (txValid p s = true ↔ (s.emulated = false ∧ (s.fsm = .sof ∨ s.fsm = .data)))) ∧
  (∀ (p : Pins) (s : State), p.rst = true → txValid p s = false) ∧
  (∀ (s t : State) (b : Beat), step s = .next t →
    (t.beat = some b ↔
      (txValid s.nextPins s = true ∧ s.nextPins.txReady = true ∧ s.nextPins.resValid = false ∧
        s.offered = some b.byte ∧ b.first = (s.fsm == .sof) ∧ b.last = (s.fsm == .data && s.txIdx.val == 767))))

/-- R126: in a cycle with a byte on offer, a ready sink and a verdict, the verdict is taken and the beat does not count. -/
def Obligations.VerdictWinsOverBeat : Prop :=
  ∀ (s : State) (p : Pins) (rest : List Pins),
    s.inputs = p :: rest → p.rst = false → txValid p s = true → p.txReady = true → p.resValid = true →
    ∃ t, step s = .next t ∧ t.beat = none ∧ t.fsm = .idle ∧ t.txIdx = 0 ∧
      t.rsp = some (0x03#8 ++ (0#16 ++ (if p.resOk then 0x03#8 else p.resCause)))

/-- R34, R120: with the emulated sink, what the transmit and verdict inputs carry changes nothing. -/
def Obligations.EmulatedModeIgnoresTheSinkPorts : Prop :=
  ∀ (s : State) (p q : Pins) (rest : List Pins),
    s.emulated = true → q.rst = p.rst → q.emulated = p.emulated → q.cmdValid = p.cmdValid → q.cmdData = p.cmdData →
    step { s with inputs := p :: rest } = step { s with inputs := q :: rest }

/-- R161: the strap is sampled by Reset and at no other time. The parameters are constant too (R6). -/
def Obligations.StrapIsSampledByResetOnly : Prop :=
  (∀ s t : State, step s = .next t →
    t.emulated = (if s.nextPins.rst then s.nextPins.emulated else s.emulated) ∧ t.config = s.config) ∧
  (∀ (s : State) (p : Pins) (rest : List Pins) (strap : Bool), p.rst = false →
    step { s with inputs := p :: rest } = step { s with inputs := { p with emulated := strap } :: rest })

/-! ### Commands -/

/-- R80 (with R45, R68, R97): SETPIX in range writes all 24 bits of the one cell its coordinates address, answers OK, and
leaves every other cell and every other item of the state. That the store stays canonical (`t.cells.wf`) is about the
model's own form of it, log entry 6 (DESIGN CHOICE), and no rule of the spec. -/
def Obligations.SetpixWritesOneCell : Prop :=
  ∀ (s : State) (x y : Byte) (pix : Pixel), s.cells.wf = true → x.toNat < 16 → y.toNat < 16 →
    ∃ t, exec (.setpix x y pix) s = .next t ∧
      t.readCell (accAddr s.config s.rotation (coordOf x) (coordOf y)) = pix ∧
      (∀ b : CellAddr, b ≠ accAddr s.config s.rotation (coordOf x) (coordOf y) → t.readCell b = s.readCell b) ∧
      t.cells.wf = true ∧
      t = { s with cells := t.cells, rsp := some 0x00000000#32 }

/-- R46 (with R81): GETPIX in range answers the cell, changes nothing else, and asked again answers the same. -/
def Obligations.GetpixReadsWithoutSideEffect : Prop :=
  ∀ (s : State) (x y : Byte), x.toNat < 16 → y.toNat < 16 →
    ∃ t, exec (.getpix x y) s = .next t ∧
      t = { s with rsp := some (0x00#8 ++ s.readCell (accAddr s.config s.rotation (coordOf x) (coordOf y))) } ∧
      exec (.getpix x y) t = .next t

/-- R141: a coordinate out of range, either or both, is one and the same condition, with no clamping and no wrapping:
nothing is written and nothing is read. -/
def Obligations.OutOfRangeCoordinatesRaise : Prop :=
  ∀ (s : State) (x y : Byte) (pix : Pixel), 16 ≤ x.toNat ∨ 16 ≤ y.toNat →
    exec (.setpix x y pix) s = .next { s with rsp := some 0x01000000#32 } ∧
    exec (.getpix x y) s = .next { s with rsp := some 0x01000000#32 }

/-- R91: the complete map from the angle operand to the register. -/
def Obligations.AngleDecodeTable : Prop :=
  ∀ s : State,
    exec (.setrot 0x0000#16) s = .next { s with rotation := 0b00#2, rsp := some 0x00000000#32 } ∧
    exec (.setrot 0x005A#16) s = .next { s with rotation := 0b01#2, rsp := some 0x00000000#32 } ∧
    exec (.setrot 0x00B4#16) s = .next { s with rotation := 0b10#2, rsp := some 0x00000000#32 } ∧
    exec (.setrot 0x010E#16) s = .next { s with rotation := 0b11#2, rsp := some 0x00000000#32 } ∧
    ∀ angle : BitVec 16, angle.toNat ≠ 0 → angle.toNat ≠ 90 → angle.toNat ≠ 180 → angle.toNat ≠ 270 →
      exec (.setrot angle) s = .next { s with rsp := some 0x02000000#32 }

/-- R92: SETROT moves no pixel. Under SERIALIZE no GETPIX answer changes; under ACCESS the next frame does not. -/
def Obligations.SetrotMovesNoPixel : Prop :=
  ∀ (s t : State) (angle : BitVec 16), exec (.setrot angle) s = .next t →
    t.cells = s.cells ∧
    (s.config.rotStage = .serialize → ∀ (x y : Byte) (u : State), exec (.getpix x y) s = .next u →
      ∃ v, exec (.getpix x y) t = .next v ∧ v.rsp = u.rsp) ∧
    (s.config.rotStage = .access → t.frame = s.frame)

/-- R109: the accepting step of DISPLAY writes `fsm` and `tx_idx` only, and gives no response. -/
def Obligations.DisplayStartsAFrame : Prop :=
  ∀ s : State, exec .display s = .next { s with fsm := .sof, txIdx := 0 }

/-- R83, with R99: a SETPIX leaves what every other coordinate reads. -/
def Obligations.SetpixLeavesOtherCoordinates : Prop :=
  ∀ (s t : State) (x y x' y' : Byte) (pix : Pixel), s.cells.wf = true →
    x.toNat < 16 → y.toNat < 16 → x'.toNat < 16 → y'.toNat < 16 → (x' ≠ x ∨ y' ≠ y) →
    exec (.setpix x y pix) s = .next t →
    ∃ r, exec (.getpix x' y') s = .next { s with rsp := some r } ∧
      exec (.getpix x' y') t = .next { t with rsp := some r }

/-- R83: after a SETPIX, and after any number of steps that accept no other SETPIX to that coordinate, take no Reset and,
under ACCESS, accept no SETROT, GETPIX answers the pixel. -/
def Obligations.WriteReadRoundTrip : Prop :=
  ∀ (s t : State) (x y : Byte) (pix : Pixel) (n : Nat), s.cells.wf = true → x.toNat < 16 → y.toNat < 16 →
    exec (.setpix x y pix) s = .next t →
    (∀ p ∈ t.inputs.take n, p.rst = false ∧
      (p.cmdValid = true → (∀ c : Pixel, decode p.cmdData ≠ .ok (.setpix x y c)) ∧
        (s.config.rotStage = .access → ∀ angle, decode p.cmdData ≠ .ok (.setrot angle)))) →
    exec (.getpix x y) (t.after n) = .next { t.after n with rsp := some (0x00#8 ++ pix) }

/-- R84: from reset, before any SETPIX, every legal coordinate reads black, under every parameter choice and whatever else
has happened since. -/
def Obligations.DefaultPixelsAreBlack : Prop :=
  ∀ (c : Config) (strap : Bool) (ins : List Pins) (n : Nat) (x y : Byte), x.toNat < 16 → y.toNat < 16 →
    (∀ p ∈ ins.take n, p.cmdValid = true → ∀ (x' y' : Byte) (pix : Pixel), decode p.cmdData ≠ .ok (.setpix x' y' pix)) →
    ∃ t, exec (.getpix x y) (State.after n { State.resetWith c strap with inputs := ins }) = .next t ∧
      t.rsp = some 0x00000000#32

/-! ### Conditions and responses -/

/-- R69: the five status codes, and no step answers any other. -/
def Obligations.StatusCodesAreTheFive : Prop :=
  statusOk = 0x00#8 ∧ Condition.indexOutOfBounds.code = 0x01#8 ∧ Condition.invalidRotation.code = 0x02#8 ∧
  (∀ c, (Condition.transportError c).code = 0x03#8) ∧ Condition.illegalCommand.code = 0x04#8 ∧
  ∀ (s t : State) (r : RspWord), step s = .next t → t.rsp = some r →
    (rspStatus r).toNat ≤ 4 ∧
    (rspStatus r = 0x03#8 → (rspData r).extractLsb' 8 16 = 0) ∧
    ((rspStatus r = 0x01#8 ∨ rspStatus r = 0x02#8 ∨ rspStatus r = 0x04#8) → rspData r = 0)

/-- R147, R148, R149: a command answered by a condition in its own step leaves no trace but the response, so that the next
command finds the state as if the failed one had never been issued. -/
def Obligations.FailedCommandsLeaveNoTrace : Prop :=
  ∀ (s t : State) (w : CmdWord) (r : RspWord), s.accepts = some w → step s = .next t → t.rsp = some r →
    rspStatus r ≠ 0x00#8 →
    t = { s with inputs := s.inputs.tail, rsp := some r, beat := none }

/-! ### Reset and invariants -/

/-- R36: what every item of state and every output is after Reset, from whatever state. The level of the strap at power on
and the marker's value are free (log entries 4 and 5). -/
def Obligations.ResetValues : Prop :=
  (∀ (s : State) (p : Pins) (rest : List Pins), s.inputs = p :: rest → p.rst = true →
    cmdReady p s = false ∧
    ∃ t, step s = .next t ∧ (∀ a : CellAddr, t.readCell a = 0x000000#24) ∧ t.rotation = 0b00#2 ∧ t.fsm = .idle ∧
      t.txIdx = 0 ∧ t.emulated = p.emulated ∧ t.rsp = none ∧ t.beat = none ∧
      (∀ q : Pins, txValid q t = false) ∧ (∀ q : Pins, q.rst = false → cmdReady q t = true)) ∧
  (∀ a : CellAddr, State.reset.readCell a = 0x000000#24) ∧ State.reset.rotation = 0b00#2 ∧ State.reset.fsm = .idle ∧
  State.reset.txIdx = 0 ∧ State.reset.rsp = none ∧ State.reset.beat = none

/-- R35 items a to c, and the canonical form of the store (log entry 6), in the reset state. -/
def Obligations.InvariantHoldsAtReset : Prop := State.reset.Inv

/-- R35 items a to c, and the canonical form of the store (log entry 6): every step keeps them, from any state that has
them. -/
def Obligations.EveryStepKeepsTheInvariant : Prop :=
  ∀ s t : State, s.Inv → step s = .next t → t.Inv

/-- R21 with log entry 6: in the canonical form, stores that read alike are equal. -/
def Obligations.StoresThatReadAlikeAreEqual : Prop :=
  ∀ m m' : Memory, m.wf = true → m'.wf = true → (∀ a : Nat, m.read a = m'.read a) → m = m'

/-! ### Whole-machine rules -/

/-- R123, R35 item d: no step of a frame, no DISPLAY and no verdict writes the store or the rotation, or alters the frame;
only Reset does while a frame is in flight. -/
def Obligations.DisplayIsReadOnly : Prop :=
  ∀ s t : State, step s = .next t → s.nextPins.rst = false →
    (s.fsm ≠ .idle ∨ s.accepts = none ∨ s.accepts = some (encode .display)) →
    t.cells = s.cells ∧ t.rotation = s.rotation ∧ t.frame = s.frame

/-- R20's "Written by": the store is changed by an accepted SETPIX in range and by Reset only, and then in the one cell that
its coordinates address at the state's rotation (R80, R97); the rotation is changed by an accepted SETROT and by Reset only,
and then to the quarter-turn count of its angle (R90). The premise `Inv` holds the canonical form, log entry 6. -/
def Obligations.WhoWritesStoreAndRotation : Prop :=
  ∀ s t : State, s.Inv → step s = .next t → s.nextPins.rst = false →
    (t.cells ≠ s.cells → ∃ x y pix, s.accepts = some (encode (.setpix x y pix)) ∧ x.toNat < 16 ∧ y.toNat < 16 ∧
      t.readCell (accAddr s.config s.rotation (coordOf x) (coordOf y)) = pix ∧
      ∀ b : CellAddr, b ≠ accAddr s.config s.rotation (coordOf x) (coordOf y) → t.readCell b = s.readCell b) ∧
    (t.rotation ≠ s.rotation → ∃ angle, s.accepts = some (encode (.setrot angle)) ∧
      angle.toNat = 90 * t.rotation.toNat)

/-! ### The rotation address decoder -/

/-- R93, with R101: the four transforms as arithmetic on 0..15. -/
def Obligations.TransformFormulas : Prop :=
  ∀ x y : Coord,
    rotT 0 x y = (x, y) ∧
    ((rotT 1 x y).1.toNat = 15 - y.toNat ∧ (rotT 1 x y).2.toNat = x.toNat) ∧
    ((rotT 2 x y).1.toNat = 15 - x.toNat ∧ (rotT 2 x y).2.toNat = 15 - y.toNat) ∧
    ((rotT 3 x y).1.toNat = y.toNat ∧ (rotT 3 x y).2.toNat = 15 - x.toNat)

/-- R94: the inverse transform, its table, and that it undoes the transform on both sides. -/
def Obligations.InverseTransform : Prop :=
  ∀ (q : Rotation) (x y : Coord),
    (rotTinv 0 x y = (x, y) ∧
      ((rotTinv 1 x y).1.toNat = y.toNat ∧ (rotTinv 1 x y).2.toNat = 15 - x.toNat) ∧
      ((rotTinv 2 x y).1.toNat = 15 - x.toNat ∧ (rotTinv 2 x y).2.toNat = 15 - y.toNat) ∧
      ((rotTinv 3 x y).1.toNat = 15 - y.toNat ∧ (rotTinv 3 x y).2.toNat = x.toNat)) ∧
    rotTinv q x y = rotT (BitVec.ofNat 2 ((4 - q.toNat) % 4)) x y ∧
    rotTinv q (rotT q x y).1 (rotT q x y).2 = (x, y) ∧
    rotT q (rotTinv q x y).1 (rotTinv q x y).2 = (x, y)

/-- R95, R96: the scan map and its inverse as arithmetic, for both scan orders. -/
def Obligations.ScanFormulas : Prop :=
  ∀ (x y : Coord) (p : CellAddr) (o : ScanOrder),
    (scan .rowMajor x y).toNat = 16 * y.toNat + x.toNat ∧
    (scan .colMajor x y).toNat = 16 * x.toNat + y.toNat ∧
    ((unscan .rowMajor p).1.toNat = p.toNat % 16 ∧ (unscan .rowMajor p).2.toNat = p.toNat / 16) ∧
    ((unscan .colMajor p).1.toNat = p.toNat / 16 ∧ (unscan .colMajor p).2.toNat = p.toNat % 16) ∧
    scan o (unscan o p).1 (unscan o p).2 = p ∧ unscan o (scan o x y) = (x, y) ∧
    scan o 0 0 = 0 ∧ scan o 15 15 = 255

/-- R97, R98: the access address and the output source address in both arms of `ROT_STAGE`. -/
def Obligations.AddressFunctionsByStage : Prop :=
  ∀ (c : Config) (q : Rotation) (x y : Coord) (p : CellAddr),
    (c.rotStage = .serialize → accAddr c q x y = scan c.scanOrder x y ∧
      outSrc c q p = scan c.scanOrder (rotTinv q (unscan c.scanOrder p).1 (unscan c.scanOrder p).2).1
        (rotTinv q (unscan c.scanOrder p).1 (unscan c.scanOrder p).2).2) ∧
    (c.rotStage = .access → accAddr c q x y = scan c.scanOrder (rotT q x y).1 (rotT q x y).2 ∧ outSrc c q p = p)

/-- R99: the transform, the access address and the output source address are bijections in every configuration, and two
different rotations agree on no coordinate. -/
def Obligations.DecoderIsABijection : Prop :=
  (∀ q : Rotation, Function.Bijective (fun xy : Coord × Coord => rotT q xy.1 xy.2)) ∧
  (∀ (c : Config) (q : Rotation), Function.Bijective (fun xy : Coord × Coord => accAddr c q xy.1 xy.2)) ∧
  (∀ (c : Config) (q : Rotation), Function.Bijective (outSrc c q)) ∧
  (∀ (q : Rotation) (x y : Coord), q ≠ 0 → rotT q x y ≠ (x, y)) ∧
  (∀ (q q' : Rotation) (x y : Coord), q ≠ q' → rotT q x y ≠ rotT q' x y)

/-- R100: transforms compose by adding quarter turns. -/
def Obligations.TransformsCompose : Prop :=
  ∀ (q q' : Rotation) (x y : Coord),
    rotT q (rotT q' x y).1 (rotT q' x y).2 = rotT (BitVec.ofNat 2 ((q.toNat + q'.toNat) % 4)) x y

/-- R102: the closed forms of the output source address under SERIALIZE. -/
def Obligations.OutputSourceClosedForms : Prop :=
  ∀ (sof : Byte) (p : CellAddr),
    let row : Config := { sof := sof, scanOrder := .rowMajor, rotStage := .serialize }
    let col : Config := { sof := sof, scanOrder := .colMajor, rotStage := .serialize }
    outSrc row 0 p = p ∧ outSrc col 0 p = p ∧
    outSrc row 1 p = ~~~(p.extractLsb' 0 4) ++ p.extractLsb' 4 4 ∧
    outSrc col 1 p = p.extractLsb' 0 4 ++ ~~~(p.extractLsb' 4 4) ∧
    (outSrc row 2 p).toNat = 255 - p.toNat ∧ (outSrc col 2 p).toNat = 255 - p.toNat ∧
    outSrc row 3 p = p.extractLsb' 0 4 ++ ~~~(p.extractLsb' 4 4) ∧
    outSrc col 3 p = ~~~(p.extractLsb' 0 4) ++ p.extractLsb' 4 4 ∧
    (outSrc row 1 p).toNat = 16 * (15 - p.toNat % 16) + p.toNat / 16 ∧
    (outSrc col 1 p).toNat = 16 * (p.toNat % 16) + (15 - p.toNat / 16) ∧
    (outSrc row 3 p).toNat = 16 * (p.toNat % 16) + (15 - p.toNat / 16) ∧
    (outSrc col 3 p).toNat = 16 * (15 - p.toNat % 16) + p.toNat / 16

/-- R98, R103: in both designs, the pixel that GETPIX reads at `(x, y)` is the one the frame shows at position
`scan(T(q, x, y))`. -/
def Obligations.FrameShowsWhatGetpixReads : Prop :=
  ∀ (s : State) (x y : Byte), x.toNat < 16 → y.toNat < 16 →
    let xy := rotT s.rotation (coordOf x) (coordOf y)
    exec (.getpix x y) s =
      .next { s with rsp := some (0x00#8 ++ s.shownPixel (scan s.config.scanOrder xy.1 xy.2)) }

/-- R103 item a: while no SETROT is accepted, the SERIALIZE design and the ACCESS design, started on the same logical
picture, cannot be told apart: same beats, same responses, for every behaviour of host, sink and reset. -/
def Obligations.DesignsAgreeUnderOneRotation : Prop :=
  ∀ (n : Nat) (s u : State), s.config.rotStage = .serialize → s.Inv → u.cells.wf = true →
    u = { s with cells := u.cells, config := { s.config with rotStage := .access } } →
    (∀ x y : Coord, s.readCell (accAddr s.config s.rotation x y) = u.readCell (accAddr u.config u.rotation x y)) →
    (∀ p ∈ s.inputs.take n, p.cmdValid = true → ∀ angle, decode p.cmdData ≠ .ok (.setrot angle)) →
    s.beats n = u.beats n ∧ s.responses n = u.responses n

/-! ### The frame -/

/-- R105, with R106: payload byte `i` is channel `i mod 3` of the pixel at frame position `i div 3`, as stored. -/
def Obligations.PayloadBytes : Prop :=
  ∀ (s : State) (i : Nat), i < 768 →
    let v := s.cells.read (outSrc s.config s.rotation (BitVec.ofNat 8 (i / 3))).toNat
    i / 3 < 256 ∧
    (i % 3 = 0 → (s.payloadByte i).toNat = v.toNat / 65536) ∧
    (i % 3 = 1 → (s.payloadByte i).toNat = v.toNat / 256 % 256) ∧
    (i % 3 = 2 → (s.payloadByte i).toNat = v.toNat % 256)

/-- R107, with R108 item a: the frame is the marker and the 768 payload bytes, 769 in all. -/
def Obligations.FrameIsMarkerAndPayload : Prop :=
  ∀ s : State, s.frame.length = 769 ∧ s.frame[0]? = some s.config.sof ∧
    ∀ k : Nat, 1 ≤ k → k ≤ 768 → s.frame[k]? = some (s.payloadByte (k - 1))

/-- R125: D0's worked frame, under every parameter choice. -/
def Obligations.WorkedFrame : Prop :=
  ∀ s : State, s.rotation = 0 → s.readCell (accAddr s.config 0 0 0) = 0xFF0000#24 →
    (∀ a : CellAddr, a ≠ accAddr s.config 0 0 0 → s.readCell a = 0x000000#24) →
    accAddr s.config 0 0 0 = 0 ∧ outSrc s.config 0 0 = 0 ∧
    s.frame = s.config.sof :: 0xFF#8 :: 0x00#8 :: 0x00#8 :: List.replicate 765 0x00#8

/-! ### The framing state machine, with the real sink -/

/-- R112: the sink takes the marker. -/
def Obligations.MarkerBeat : Prop :=
  ∀ (s : State) (p : Pins) (rest : List Pins), s.emulated = false → s.fsm = .sof →
    s.inputs = p :: rest → p.rst = false → p.resValid = false → p.txReady = true →
    step s = .next { s with
      inputs := rest, fsm := .data, txIdx := 0, rsp := none,
      beat := some { byte := s.config.sof, first := true, last := false } }

/-- R113: the sink takes a payload byte, and after the last one the block waits for the verdict. -/
def Obligations.PayloadBeat : Prop :=
  ∀ (s : State) (p : Pins) (rest : List Pins), s.emulated = false → s.fsm = .data →
    s.inputs = p :: rest → p.rst = false → p.resValid = false → p.txReady = true →
    (∀ i : Fin 768, s.txIdx.val < 767 → i.val = s.txIdx.val + 1 → step s = .next { s with
      inputs := rest, txIdx := i, rsp := none,
      beat := some { byte := s.payloadByte s.txIdx.val, first := false, last := false } }) ∧
    (s.txIdx.val = 767 → step s = .next { s with
      inputs := rest, fsm := .result, txIdx := 0, rsp := none,
      beat := some { byte := s.payloadByte 767, first := false, last := true } })

/-- R114: the verdict in RESULT, where no byte is on offer; and a frame in flight is answered with success there only. -/
def Obligations.VerdictInResult : Prop :=
  (∀ (s : State) (p : Pins) (rest : List Pins), s.emulated = false → s.fsm = .result → s.txIdx = 0 →
    s.inputs = p :: rest → p.rst = false → p.resValid = true →
    s.offered = none ∧
    (p.resOk = true → step s = .next { s with
      inputs := rest, fsm := .idle, rsp := some 0x00000000#32, beat := none }) ∧
    (p.resOk = false → step s = .next { s with
      inputs := rest, fsm := .idle, rsp := some (0x03#8 ++ (0x0000#16 ++ p.resCause)), beat := none })) ∧
  (∀ (s t : State) (r : RspWord), step s = .next t → s.fsm ≠ .idle → t.rsp = some r → rspStatus r = 0x00#8 →
    s.fsm = .result)

/-- R115 and R116: a verdict in SOF or DATA ends the frame: a failure with the sink's cause, an early success as a short
write. -/
def Obligations.EarlyVerdictEndsTheFrame : Prop :=
  ∀ (s : State) (p : Pins) (rest : List Pins), s.emulated = false → (s.fsm = .sof ∨ s.fsm = .data) →
    s.inputs = p :: rest → p.rst = false → p.resValid = true →
    (p.resOk = false → step s = .next { s with
      inputs := rest, fsm := .idle, txIdx := 0, rsp := some (0x03#8 ++ (0x0000#16 ++ p.resCause)), beat := none }) ∧
    (p.resOk = true → step s = .next { s with
      inputs := rest, fsm := .idle, txIdx := 0, rsp := some 0x03000003#32, beat := none })

/-- R34, R117: a verdict with no frame in flight changes nothing and produces no response. The second clause says so of a
cycle that accepts a command too, a DISPLAY among them: that such a verdict comes before the frame is the model's reading,
log entry 15 (DEDUCED). -/
def Obligations.VerdictWhenIdleIsIgnored : Prop :=
  ∀ (s : State) (p : Pins) (rest : List Pins), s.fsm = .idle → s.inputs = p :: rest → p.rst = false →
    (p.cmdValid = false → step s = .next { s with inputs := rest, rsp := none, beat := none }) ∧
    step s = step { s with inputs := { p with resValid := false } :: rest }

/-- R121: the transition table, event by event. That its dashes, the steps that cannot happen, are answered by the fault
`notEnabled` is the model's choice, log entry 12 (DESIGN CHOICE). Sink events are those of a real sink; the emulated sink has
its own statement. -/
def Obligations.TransitionTable : Prop :=
  ∀ s : State,
    (s.fsm = .idle →
      (∃ t, takeEvent (.cmd (encode .display)) s = .next t ∧ t.fsm = .sof ∧ t.txIdx = 0 ∧ t.rsp = s.rsp) ∧
      (∀ w, w ≠ encode .display → ∃ t r, takeEvent (.cmd w) s = .next t ∧ t.fsm = .idle ∧ t.rsp = some r) ∧
      takeEvent .beat s = .fault .notEnabled ∧
      takeEvent .sinkOk s = .next s ∧ (∀ c, takeEvent (.sinkFail c) s = .next s)) ∧
    (s.fsm ≠ .idle → ∀ w, takeEvent (.cmd w) s = .fault .notEnabled) ∧
    (s.fsm = .sof → ∃ t, takeEvent .beat s = .next t ∧ t.fsm = .data ∧ t.txIdx = 0 ∧ t.rsp = s.rsp) ∧
    (s.fsm = .data → s.txIdx.val < 767 →
      ∃ t, takeEvent .beat s = .next t ∧ t.fsm = .data ∧ t.txIdx.val = s.txIdx.val + 1 ∧ t.rsp = s.rsp) ∧
    (s.fsm = .data → s.txIdx.val = 767 →
      ∃ t, takeEvent .beat s = .next t ∧ t.fsm = .result ∧ t.txIdx = 0 ∧ t.rsp = s.rsp) ∧
    (s.fsm = .result → takeEvent .beat s = .fault .notEnabled) ∧
    (s.emulated = false → (s.fsm = .sof ∨ s.fsm = .data) →
      ∃ t, takeEvent .sinkOk s = .next t ∧ t.fsm = .idle ∧ t.rsp = some 0x03000003#32) ∧
    (s.fsm = .result → ∃ t, takeEvent .sinkOk s = .next t ∧ t.fsm = .idle ∧ t.rsp = some 0x00000000#32) ∧
    (s.emulated = false → s.fsm ≠ .idle → ∀ c,
      ∃ t, takeEvent (.sinkFail c) s = .next t ∧ t.fsm = .idle ∧ t.rsp = some (0x03#8 ++ (0x0000#16 ++ c))) ∧
    (∀ strap, ∃ t, takeEvent (.reset strap) s = .next t ∧ t.fsm = .idle ∧ t.rsp = none)

/-- R8, R111: the pins never amount to a step that R121 marks as not enabled, and the executor and the framer never have a
step at once: a command only with `fsm = IDLE`, a beat only in SOF and DATA. -/
def Obligations.OnlyEnabledEventsHappen : Prop :=
  ∀ (p : Pins) (s : State) (e : Event), eventOf p s = some e →
    enabled e s = true ∧ (∀ w, e = .cmd w → s.fsm = .idle) ∧ (e = .beat → s.fsm = .sof ∨ s.fsm = .data)

/-! ### Runs -/

/-- R32: as long as no Reset is taken, every accepted command is answered exactly once: the responses given, and the one
still owed while a frame is in flight, are as many as the commands accepted and the one owed at the start. -/
def Obligations.EveryAcceptedCommandIsAnsweredOnce : Prop :=
  ∀ (n : Nat) (s : State), (∀ p ∈ s.inputs.take n, p.rst = false) →
    (s.responses n).length + (if (s.after n).busy then 1 else 0) =
      (s.acceptances n).length + (if s.busy then 1 else 0)

/-- R169: with a real sink that takes no byte and gives no verdict, a frame stays in flight for as long as that lasts:
nothing is sent, nothing is answered, nothing changes. -/
def Obligations.FrameWaitsForTheSink : Prop :=
  ∀ (n : Nat) (s : State), s.emulated = false → s.fsm ≠ .idle →
    (∀ p ∈ s.inputs.take n, p.rst = false ∧ p.resValid = false ∧ p.txReady = false) →
    s.beats n = [] ∧ s.responses n = [] ∧ (s.after n).fsm = s.fsm ∧ (s.after n).txIdx = s.txIdx ∧
      (s.after n).cells = s.cells ∧ (s.after n).rotation = s.rotation ∧ (s.after n).busy = true

/-- R122: what one DISPLAY comes to, for every behaviour of the sink and the host without Reset. The clauses on `steps` say
that the transaction is the run: the steps up to the answer, all `n` if there is none. With a real sink the beats are the
first `m` of the frame's, and the answer is that of the verdict in the answering cycle: the sink's own cause on a failure
(case ii); on a success OK if all 769 bytes were taken (case i), a short write if not (case iii). With the emulated sink there
is no beat and no answer but OK (case v). The store and the rotation are what they were, and once answered the block is
idle. -/
def Obligations.DisplayTransaction : Prop :=
  ∀ (n : Nat) (s : State), s.fsm = .sof → s.txIdx = 0 → (∀ p ∈ s.inputs.take n, p.rst = false) →
    let d := s.transact n
    d.steps ≤ n ∧ d.final = s.after d.steps ∧ d.beats = s.beats d.steps ∧
    d.response.toList = s.responses d.steps ∧
    d.final.cells = s.cells ∧ d.final.rotation = s.rotation ∧
    (d.response ≠ none → d.final.fsm = .idle ∧ d.final.txIdx = 0) ∧
    (d.response = none → d.steps = n ∧ d.final.fsm ≠ .idle) ∧
    (s.emulated = true → d.beats = [] ∧ (d.response = none ∨ d.response = some 0x00000000#32)) ∧
    (s.emulated = false → ∃ m : Nat, m ≤ 769 ∧ d.beats = s.frameBeats.take m ∧
      ∀ r : RspWord, d.response = some r → ∃ k : Nat, d.steps = k + 1 ∧
        let p := (s.after k).nextPins
        p.resValid = true ∧
        (p.resOk = false → r = 0x03#8 ++ (0x0000#16 ++ p.resCause)) ∧
        (p.resOk = true → m = 769 → r = 0x00000000#32) ∧
        (p.resOk = true → m ≤ 768 → r = 0x03000003#32))

/-- R118, R122 case i: a DISPLAY whose bytes a real sink takes one after another, and which it then calls a success: exactly
the 769 beats of the frame, exactly one response, OK, and the state otherwise as before. A verdict in the cycle that accepts
the DISPLAY is not ruled out: that it is ignored (R34, R117) is the model's reading, log entry 15 (DEDUCED). -/
def Obligations.SuccessfulDisplaySendsTheFrame : Prop :=
  ∀ (s : State) (first last : Pins) (takes rest : List Pins),
    s.emulated = false → s.fsm = .idle → s.txIdx = 0 →
    s.inputs = first :: takes ++ last :: rest →
    first.rst = false → first.cmdValid = true → first.cmdData = encode .display →
    takes.length = 769 → (∀ p ∈ takes, p.rst = false ∧ p.resValid = false ∧ p.txReady = true) →
    last.rst = false → last.resValid = true → last.resOk = true →
    s.beats 771 = s.frameBeats ∧ s.responses 771 = [0x00000000#32] ∧
    s.after 771 = { s with inputs := rest, rsp := some 0x00000000#32, beat := none }

/-- R120: with the emulated sink a DISPLAY always ends and always succeeds, within the 770 internal steps, with no external
beat, whatever the sink's pins carry. -/
def Obligations.EmulatedDisplayAlwaysSucceeds : Prop :=
  ∀ (s : State) (w : CmdWord), s.emulated = true → s.accepts = some w → decode w = .ok .display →
    (∀ p ∈ s.inputs.take 771, p.rst = false) →
    s.beats 771 = [] ∧ s.responses 771 = [0x00000000#32] ∧ (s.after 771).fsm = .idle ∧ (s.after 771).txIdx = 0 ∧
      (s.after 771).cells = s.cells ∧ (s.after 771).rotation = s.rotation
end

