-- ==== Sys2Proof/Laws/Memory.lean ====
section
/-! SUPPORT. The pixel store: a read after a write, and the canonical form, which every operation keeps (20_memory.md R45,
R46). -/

namespace Sys2Proof.Machine

theorem Memory.wfFrom_mono (m : Memory) {lo hi : Nat} (h : lo ≤ hi) (hm : m.wfFrom hi = true) : m.wfFrom lo = true := by
  cases m with
  | nil => rfl
  | cons p rest =>
    obtain ⟨a, v⟩ := p
    simp only [Memory.wfFrom, Bool.and_eq_true, decide_eq_true_eq] at hm ⊢
    exact ⟨⟨⟨by omega, hm.1.1.2⟩, hm.1.2⟩, hm.2⟩

/-- Nothing is listed below the bound of the canonical form. -/
theorem Memory.read_below (m : Memory) {lo a : Nat} (hm : m.wfFrom lo = true) (h : a < lo) : m.read a = Memory.blank := by
  induction m generalizing lo with
  | nil => rfl
  | cons p rest ih =>
    obtain ⟨b, u⟩ := p
    simp only [Memory.wfFrom, Bool.and_eq_true, decide_eq_true_eq] at hm
    have hab : a ≠ b := by omega
    rw [Memory.read, if_neg hab]
    exact ih hm.2 (by omega)

theorem Memory.read_entry_same (m : Memory) {a : Nat} (v : Pixel) (hm : m.wfFrom (a + 1) = true) :
    (Memory.entry a v m).read a = v := by
  unfold Memory.entry
  split
  · rename_i h; rw [h]; exact m.read_below hm (by omega)
  · simp [Memory.read]

theorem Memory.read_entry_other (m : Memory) {a b : Nat} (v : Pixel) (h : b ≠ a) :
    (Memory.entry a v m).read b = m.read b := by
  unfold Memory.entry
  split
  · rfl
  · simp [Memory.read, h]

theorem Memory.wfFrom_entry (m : Memory) {a lo : Nat} (v : Pixel) (hlo : lo ≤ a) (ha : a < Config.nCells)
    (hm : m.wfFrom (a + 1) = true) : (Memory.entry a v m).wfFrom lo = true := by
  unfold Memory.entry
  split
  · exact m.wfFrom_mono (by omega) hm
  · rename_i h
    simp only [Memory.wfFrom, Bool.and_eq_true, decide_eq_true_eq]
    exact ⟨⟨⟨hlo, ha⟩, h⟩, hm⟩

/-- R45: the cell written reads as the value written. -/
theorem Memory.read_write_same (m : Memory) {lo a : Nat} (v : Pixel) (hm : m.wfFrom lo = true) :
    (m.write a v).read a = v := by
  induction m generalizing lo with
  | nil => exact Memory.read_entry_same [] v rfl
  | cons p rest ih =>
    obtain ⟨b, u⟩ := p
    have hm' := hm
    simp only [Memory.wfFrom, Bool.and_eq_true, decide_eq_true_eq] at hm'
    unfold Memory.write
    split
    · refine Memory.read_entry_same _ v ?_
      simp only [Memory.wfFrom, Bool.and_eq_true, decide_eq_true_eq]
      exact ⟨⟨⟨by omega, hm'.1.1.2⟩, hm'.1.2⟩, hm'.2⟩
    · split
      · rename_i h; subst h; exact Memory.read_entry_same rest v hm'.2
      · rename_i h; rw [Memory.read, if_neg h]; exact ih hm'.2

/-- R45: no other cell changes. -/
theorem Memory.read_write_other (m : Memory) {a b : Nat} (v : Pixel) (h : b ≠ a) : (m.write a v).read b = m.read b := by
  induction m with
  | nil => exact Memory.read_entry_other [] v h
  | cons p rest ih =>
    obtain ⟨c, u⟩ := p
    unfold Memory.write
    split
    · exact Memory.read_entry_other _ v h
    · split
      · rename_i h'; subst h'
        rw [Memory.read_entry_other rest v h, Memory.read, if_neg h]
      · by_cases hbc : b = c <;> simp [Memory.read, hbc, ih]

theorem Memory.wfFrom_write (m : Memory) {lo a : Nat} (v : Pixel) (hm : m.wfFrom lo = true) (hlo : lo ≤ a)
    (ha : a < Config.nCells) : (m.write a v).wfFrom lo = true := by
  induction m generalizing lo with
  | nil => exact Memory.wfFrom_entry [] v hlo ha rfl
  | cons p rest ih =>
    obtain ⟨b, u⟩ := p
    simp only [Memory.wfFrom, Bool.and_eq_true, decide_eq_true_eq] at hm
    unfold Memory.write
    split
    · refine Memory.wfFrom_entry _ v hlo ha ?_
      simp only [Memory.wfFrom, Bool.and_eq_true, decide_eq_true_eq]
      exact ⟨⟨⟨by omega, hm.1.1.2⟩, hm.1.2⟩, hm.2⟩
    · split
      · rename_i h; subst h; exact Memory.wfFrom_entry rest v hlo ha hm.2
      · simp only [Memory.wfFrom, Bool.and_eq_true, decide_eq_true_eq]
        exact ⟨⟨⟨hm.1.1.1, hm.1.1.2⟩, hm.1.2⟩, ih hm.2 (by omega)⟩

/-- The one operation that changes the store keeps its canonical form. -/
theorem Memory.wf_write (m : Memory) {a : Nat} (v : Pixel) (hm : m.wf = true) (ha : a < Config.nCells) :
    (m.write a v).wf = true := m.wfFrom_write v hm (Nat.zero_le a) ha

theorem Memory.wf_nil : Memory.wf [] = true := rfl

/-- An address is never out of the store: a cell address has eight bits (R40). -/
theorem CellAddr_lt_nCells (a : CellAddr) : a.toNat < Config.nCells := a.isLt

end Sys2Proof.Machine
end

