-- ==== Sys2Proof/Laws/State.lean ====
section
/-! SUPPORT. The fields of State after each named update: one lemma a field and update, true by rfl, so that no later proof
unfolds a record update. -/

namespace Sys2Proof.Machine

/-! ### writeCell -/

@[simp] theorem writeCell_cells (s : State) (a : CellAddr) (v : Pixel) : (s.writeCell a v).cells = s.cells.write a.toNat v := rfl
@[simp] theorem writeCell_rotation (s : State) (a : CellAddr) (v : Pixel) : (s.writeCell a v).rotation = s.rotation := rfl
@[simp] theorem writeCell_fsm (s : State) (a : CellAddr) (v : Pixel) : (s.writeCell a v).fsm = s.fsm := rfl
@[simp] theorem writeCell_txIdx (s : State) (a : CellAddr) (v : Pixel) : (s.writeCell a v).txIdx = s.txIdx := rfl
@[simp] theorem writeCell_emulated (s : State) (a : CellAddr) (v : Pixel) : (s.writeCell a v).emulated = s.emulated := rfl
@[simp] theorem writeCell_config (s : State) (a : CellAddr) (v : Pixel) : (s.writeCell a v).config = s.config := rfl
@[simp] theorem writeCell_inputs (s : State) (a : CellAddr) (v : Pixel) : (s.writeCell a v).inputs = s.inputs := rfl
@[simp] theorem writeCell_rsp (s : State) (a : CellAddr) (v : Pixel) : (s.writeCell a v).rsp = s.rsp := rfl
@[simp] theorem writeCell_beat (s : State) (a : CellAddr) (v : Pixel) : (s.writeCell a v).beat = s.beat := rfl

/-! ### setRotation -/

@[simp] theorem setRotation_cells (s : State) (q : Rotation) : (s.setRotation q).cells = s.cells := rfl
@[simp] theorem setRotation_rotation (s : State) (q : Rotation) : (s.setRotation q).rotation = q := rfl
@[simp] theorem setRotation_fsm (s : State) (q : Rotation) : (s.setRotation q).fsm = s.fsm := rfl
@[simp] theorem setRotation_txIdx (s : State) (q : Rotation) : (s.setRotation q).txIdx = s.txIdx := rfl
@[simp] theorem setRotation_emulated (s : State) (q : Rotation) : (s.setRotation q).emulated = s.emulated := rfl
@[simp] theorem setRotation_config (s : State) (q : Rotation) : (s.setRotation q).config = s.config := rfl
@[simp] theorem setRotation_inputs (s : State) (q : Rotation) : (s.setRotation q).inputs = s.inputs := rfl
@[simp] theorem setRotation_rsp (s : State) (q : Rotation) : (s.setRotation q).rsp = s.rsp := rfl
@[simp] theorem setRotation_beat (s : State) (q : Rotation) : (s.setRotation q).beat = s.beat := rfl

/-! ### setFramer -/

@[simp] theorem setFramer_cells (s : State) (f : Fsm) (i : Fin 768) : (s.setFramer f i).cells = s.cells := rfl
@[simp] theorem setFramer_rotation (s : State) (f : Fsm) (i : Fin 768) : (s.setFramer f i).rotation = s.rotation := rfl
@[simp] theorem setFramer_fsm (s : State) (f : Fsm) (i : Fin 768) : (s.setFramer f i).fsm = f := rfl
@[simp] theorem setFramer_txIdx (s : State) (f : Fsm) (i : Fin 768) : (s.setFramer f i).txIdx = i := rfl
@[simp] theorem setFramer_emulated (s : State) (f : Fsm) (i : Fin 768) : (s.setFramer f i).emulated = s.emulated := rfl
@[simp] theorem setFramer_config (s : State) (f : Fsm) (i : Fin 768) : (s.setFramer f i).config = s.config := rfl
@[simp] theorem setFramer_inputs (s : State) (f : Fsm) (i : Fin 768) : (s.setFramer f i).inputs = s.inputs := rfl
@[simp] theorem setFramer_rsp (s : State) (f : Fsm) (i : Fin 768) : (s.setFramer f i).rsp = s.rsp := rfl
@[simp] theorem setFramer_beat (s : State) (f : Fsm) (i : Fin 768) : (s.setFramer f i).beat = s.beat := rfl

/-! ### respond -/

@[simp] theorem respond_cells (s : State) (c : Byte) (d : BitVec 24) : (s.respond c d).cells = s.cells := rfl
@[simp] theorem respond_rotation (s : State) (c : Byte) (d : BitVec 24) : (s.respond c d).rotation = s.rotation := rfl
@[simp] theorem respond_fsm (s : State) (c : Byte) (d : BitVec 24) : (s.respond c d).fsm = s.fsm := rfl
@[simp] theorem respond_txIdx (s : State) (c : Byte) (d : BitVec 24) : (s.respond c d).txIdx = s.txIdx := rfl
@[simp] theorem respond_emulated (s : State) (c : Byte) (d : BitVec 24) : (s.respond c d).emulated = s.emulated := rfl
@[simp] theorem respond_config (s : State) (c : Byte) (d : BitVec 24) : (s.respond c d).config = s.config := rfl
@[simp] theorem respond_inputs (s : State) (c : Byte) (d : BitVec 24) : (s.respond c d).inputs = s.inputs := rfl
@[simp] theorem respond_rsp (s : State) (c : Byte) (d : BitVec 24) : (s.respond c d).rsp = some (responseWord c d) := rfl
@[simp] theorem respond_beat (s : State) (c : Byte) (d : BitVec 24) : (s.respond c d).beat = s.beat := rfl

/-! ### raise -/

@[simp] theorem raise_cells (s : State) (e : Condition) : (s.raise e).cells = s.cells := rfl
@[simp] theorem raise_rotation (s : State) (e : Condition) : (s.raise e).rotation = s.rotation := rfl
@[simp] theorem raise_fsm (s : State) (e : Condition) : (s.raise e).fsm = s.fsm := rfl
@[simp] theorem raise_txIdx (s : State) (e : Condition) : (s.raise e).txIdx = s.txIdx := rfl
@[simp] theorem raise_emulated (s : State) (e : Condition) : (s.raise e).emulated = s.emulated := rfl
@[simp] theorem raise_config (s : State) (e : Condition) : (s.raise e).config = s.config := rfl
@[simp] theorem raise_inputs (s : State) (e : Condition) : (s.raise e).inputs = s.inputs := rfl
@[simp] theorem raise_rsp (s : State) (e : Condition) : (s.raise e).rsp = some (responseWord e.code e.info) := rfl
@[simp] theorem raise_beat (s : State) (e : Condition) : (s.raise e).beat = s.beat := rfl

/-! ### emitBeat -/

@[simp] theorem emitBeat_cells (s : State) (b : Beat) : (s.emitBeat b).cells = s.cells := rfl
@[simp] theorem emitBeat_rotation (s : State) (b : Beat) : (s.emitBeat b).rotation = s.rotation := rfl
@[simp] theorem emitBeat_fsm (s : State) (b : Beat) : (s.emitBeat b).fsm = s.fsm := rfl
@[simp] theorem emitBeat_txIdx (s : State) (b : Beat) : (s.emitBeat b).txIdx = s.txIdx := rfl
@[simp] theorem emitBeat_emulated (s : State) (b : Beat) : (s.emitBeat b).emulated = s.emulated := rfl
@[simp] theorem emitBeat_config (s : State) (b : Beat) : (s.emitBeat b).config = s.config := rfl
@[simp] theorem emitBeat_inputs (s : State) (b : Beat) : (s.emitBeat b).inputs = s.inputs := rfl
@[simp] theorem emitBeat_rsp (s : State) (b : Beat) : (s.emitBeat b).rsp = s.rsp := rfl
@[simp] theorem emitBeat_beat (s : State) (b : Beat) : (s.emitBeat b).beat = some b := rfl

/-! ### endFrame -/

@[simp] theorem endFrame_cells (s : State) : s.endFrame.cells = s.cells := rfl
@[simp] theorem endFrame_rotation (s : State) : s.endFrame.rotation = s.rotation := rfl
@[simp] theorem endFrame_fsm (s : State) : s.endFrame.fsm = .idle := rfl
@[simp] theorem endFrame_txIdx (s : State) : s.endFrame.txIdx = 0 := rfl
@[simp] theorem endFrame_emulated (s : State) : s.endFrame.emulated = s.emulated := rfl
@[simp] theorem endFrame_config (s : State) : s.endFrame.config = s.config := rfl
@[simp] theorem endFrame_inputs (s : State) : s.endFrame.inputs = s.inputs := rfl
@[simp] theorem endFrame_rsp (s : State) : s.endFrame.rsp = s.rsp := rfl
@[simp] theorem endFrame_beat (s : State) : s.endFrame.beat = s.beat := rfl

/-! ### beginCycle -/

@[simp] theorem beginCycle_cells (s : State) : s.beginCycle.cells = s.cells := rfl
@[simp] theorem beginCycle_rotation (s : State) : s.beginCycle.rotation = s.rotation := rfl
@[simp] theorem beginCycle_fsm (s : State) : s.beginCycle.fsm = s.fsm := rfl
@[simp] theorem beginCycle_txIdx (s : State) : s.beginCycle.txIdx = s.txIdx := rfl
@[simp] theorem beginCycle_emulated (s : State) : s.beginCycle.emulated = s.emulated := rfl
@[simp] theorem beginCycle_config (s : State) : s.beginCycle.config = s.config := rfl
@[simp] theorem beginCycle_inputs (s : State) : s.beginCycle.inputs = s.inputs.tail := rfl
@[simp] theorem beginCycle_rsp (s : State) : s.beginCycle.rsp = none := rfl
@[simp] theorem beginCycle_beat (s : State) : s.beginCycle.beat = none := rfl

/-! ### applyReset -/

@[simp] theorem applyReset_cells (s : State) (strap : Bool) : (s.applyReset strap).cells = [] := rfl
@[simp] theorem applyReset_rotation (s : State) (strap : Bool) : (s.applyReset strap).rotation = 0 := rfl
@[simp] theorem applyReset_fsm (s : State) (strap : Bool) : (s.applyReset strap).fsm = .idle := rfl
@[simp] theorem applyReset_txIdx (s : State) (strap : Bool) : (s.applyReset strap).txIdx = 0 := rfl
@[simp] theorem applyReset_emulated (s : State) (strap : Bool) : (s.applyReset strap).emulated = strap := rfl
@[simp] theorem applyReset_config (s : State) (strap : Bool) : (s.applyReset strap).config = s.config := rfl
@[simp] theorem applyReset_inputs (s : State) (strap : Bool) : (s.applyReset strap).inputs = s.inputs := rfl
@[simp] theorem applyReset_rsp (s : State) (strap : Bool) : (s.applyReset strap).rsp = none := rfl
@[simp] theorem applyReset_beat (s : State) (strap : Bool) : (s.applyReset strap).beat = none := rfl

/-! ### presentWord -/

@[simp] theorem presentWord_cells (s : State) (w : CmdWord) : (s.presentWord w).cells = s.cells := rfl
@[simp] theorem presentWord_rotation (s : State) (w : CmdWord) : (s.presentWord w).rotation = s.rotation := rfl
@[simp] theorem presentWord_fsm (s : State) (w : CmdWord) : (s.presentWord w).fsm = .idle := rfl
@[simp] theorem presentWord_txIdx (s : State) (w : CmdWord) : (s.presentWord w).txIdx = 0 := rfl
@[simp] theorem presentWord_emulated (s : State) (w : CmdWord) : (s.presentWord w).emulated = s.emulated := rfl
@[simp] theorem presentWord_config (s : State) (w : CmdWord) : (s.presentWord w).config = s.config := rfl
@[simp] theorem presentWord_inputs (s : State) (w : CmdWord) : (s.presentWord w).inputs = Pins.present w :: s.inputs := rfl
@[simp] theorem presentWord_rsp (s : State) (w : CmdWord) : (s.presentWord w).rsp = s.rsp := rfl
@[simp] theorem presentWord_beat (s : State) (w : CmdWord) : (s.presentWord w).beat = s.beat := rfl

/-! ### sendBeat: the emulated sink's beats are internal -/

@[simp] theorem sendBeat_cells (s : State) (b : Byte) : (s.sendBeat b).cells = s.cells := by
  unfold State.sendBeat; split <;> rfl
@[simp] theorem sendBeat_rotation (s : State) (b : Byte) : (s.sendBeat b).rotation = s.rotation := by
  unfold State.sendBeat; split <;> rfl
@[simp] theorem sendBeat_fsm (s : State) (b : Byte) : (s.sendBeat b).fsm = s.fsm := by
  unfold State.sendBeat; split <;> rfl
@[simp] theorem sendBeat_txIdx (s : State) (b : Byte) : (s.sendBeat b).txIdx = s.txIdx := by
  unfold State.sendBeat; split <;> rfl
@[simp] theorem sendBeat_emulated (s : State) (b : Byte) : (s.sendBeat b).emulated = s.emulated := by
  unfold State.sendBeat; split <;> rfl
@[simp] theorem sendBeat_config (s : State) (b : Byte) : (s.sendBeat b).config = s.config := by
  unfold State.sendBeat; split <;> rfl
@[simp] theorem sendBeat_inputs (s : State) (b : Byte) : (s.sendBeat b).inputs = s.inputs := by
  unfold State.sendBeat; split <;> rfl
@[simp] theorem sendBeat_rsp (s : State) (b : Byte) : (s.sendBeat b).rsp = s.rsp := by
  unfold State.sendBeat; split <;> rfl
theorem sendBeat_of_emulated (s : State) (b : Byte) (h : s.emulated = true) : s.sendBeat b = s := by
  simp [State.sendBeat, h]
theorem sendBeat_of_real (s : State) (b : Byte) (h : s.emulated = false) :
    s.sendBeat b = s.emitBeat { byte := b, first := s.markFirst, last := s.markLast } := by
  simp [State.sendBeat, h]

/-! ### The reset state -/

@[simp] theorem resetWith_cells (c : Config) (b : Bool) : (State.resetWith c b).cells = [] := rfl
@[simp] theorem resetWith_rotation (c : Config) (b : Bool) : (State.resetWith c b).rotation = 0 := rfl
@[simp] theorem resetWith_fsm (c : Config) (b : Bool) : (State.resetWith c b).fsm = .idle := rfl
@[simp] theorem resetWith_txIdx (c : Config) (b : Bool) : (State.resetWith c b).txIdx = 0 := rfl
@[simp] theorem resetWith_emulated (c : Config) (b : Bool) : (State.resetWith c b).emulated = b := rfl
@[simp] theorem resetWith_config (c : Config) (b : Bool) : (State.resetWith c b).config = c := rfl
@[simp] theorem resetWith_inputs (c : Config) (b : Bool) : (State.resetWith c b).inputs = [] := rfl
@[simp] theorem resetWith_rsp (c : Config) (b : Bool) : (State.resetWith c b).rsp = none := rfl
@[simp] theorem resetWith_beat (c : Config) (b : Bool) : (State.resetWith c b).beat = none := rfl

end Sys2Proof.Machine
end

