-- ==== Sys2Proof/Laws/Ops.lean ====
section
/-! SUPPORT. What the shared operations and the step can do, said once: one inversion lemma each, cited by every proof about
runs. -/

namespace Sys2Proof.Machine

/-! ### The store through State -/

theorem readCell_writeCell_same (s : State) (a : CellAddr) (v : Pixel) (h : s.cells.wf = true) :
    (s.writeCell a v).readCell a = v := Memory.read_write_same s.cells v h

theorem readCell_writeCell_other (s : State) (a b : CellAddr) (v : Pixel) (h : b ≠ a) :
    (s.writeCell a v).readCell b = s.readCell b :=
  Memory.read_write_other s.cells v (fun hn => h (BitVec.eq_of_toNat_eq hn))

theorem wf_writeCell (s : State) (a : CellAddr) (v : Pixel) (h : s.cells.wf = true) :
    (s.writeCell a v).cells.wf = true := Memory.wf_write s.cells v h a.isLt

theorem readCell_congr {s t : State} (h : t.cells = s.cells) (a : CellAddr) : t.readCell a = s.readCell a := by
  simp [State.readCell, h]

/-! ### Responses -/

/-- The status of a response is what `respond` was given (R68). -/
@[simp] theorem rspStatus_responseWord (c : Byte) (d : BitVec 24) : rspStatus (responseWord c d) = c := by
  apply BitVec.eq_of_getLsbD_eq
  intro i hi
  simp only [rspStatus, responseWord, BitVec.getLsbD_extractLsb', BitVec.getLsbD_append, hi, decide_true, Bool.true_and]
  rw [if_neg (by omega)]; congr 1; omega

/-- The data of a response is what `respond` was given (R68). -/
@[simp] theorem rspData_responseWord (c : Byte) (d : BitVec 24) : rspData (responseWord c d) = d := by
  apply BitVec.eq_of_getLsbD_eq
  intro i hi
  simp only [rspData, responseWord, BitVec.getLsbD_extractLsb', BitVec.getLsbD_append, hi, decide_true, Bool.true_and]
  rw [if_pos (by omega)]; congr 1; omega

/-! ### Operands -/

theorem inRange_iff (v : Byte) : inRange v = true ↔ v.toNat < 16 := by
  simp [inRange, BitVec.lt_def]

theorem cellFor_some (s : State) (x y : Byte) (hx : x.toNat < 16) (hy : y.toNat < 16) :
    s.cellFor x y = some (accAddr s.config s.rotation (coordOf x) (coordOf y)) := by
  simp [State.cellFor, (inRange_iff x).2 hx, (inRange_iff y).2 hy]

theorem cellFor_none (s : State) (x y : Byte) (h : 16 ≤ x.toNat ∨ 16 ≤ y.toNat) : s.cellFor x y = none := by
  have hxy : ¬(inRange x = true ∧ inRange y = true) := by
    rw [inRange_iff, inRange_iff]; omega
  simp only [State.cellFor, Bool.and_eq_true, if_neg hxy]

/-! ### The events -/

/-- An illegal word changes nothing but the response (R64). -/
theorem runWord_error (w : CmdWord) (s : State) {e : Reject} (h : decode w = .error e) :
    runWord w s = .next (s.raise .illegalCommand) := by simp [runWord, h]

theorem runWord_ok (w : CmdWord) (s : State) {i : Instr} (h : decode w = .ok i) : runWord w s = exec i s := by
  simp [runWord, h]

/-- What a sample of the pins can amount to, and what the state is then (R111). -/
theorem eventOf_cases {p : Pins} {s : State} {e : Event} (h : eventOf p s = some e) :
    (e = .reset p.emulated ∧ p.rst = true) ∨
    (p.rst = false ∧ e = .cmd p.cmdData ∧ p.cmdValid = true ∧ s.fsm = .idle) ∨
    (p.rst = false ∧ s.emulated = true ∧ ((e = .beat ∧ (s.fsm = .sof ∨ s.fsm = .data)) ∨ (e = .sinkOk ∧ s.fsm = .result))) ∨
    (p.rst = false ∧ s.emulated = false ∧ p.resValid = true ∧ e = verdict p) ∨
    (p.rst = false ∧ s.emulated = false ∧ p.resValid = false ∧ p.txReady = true ∧ e = .beat ∧
      (s.fsm = .sof ∨ s.fsm = .data)) := by
  unfold eventOf at h
  split at h
  · simp_all
  · rename_i hr
    have hr : p.rst = false := by simpa using hr
    split at h
    · rename_i hc
      simp only [cmdReady, Bool.and_eq_true, beq_iff_eq] at hc
      cases h; exact .inr (.inl ⟨hr, rfl, hc.1, hc.2.1⟩)
    · unfold sinkEvent at h
      split at h
      · rename_i he
        unfold emulatedSink at h
        split at h <;> simp_all
      · rename_i he
        have he : s.emulated = false := by simpa using he
        split at h
        · rename_i hv; cases h; exact .inr (.inr (.inr (.inl ⟨hr, he, hv, rfl⟩)))
        · split at h
          · rename_i hv ht
            simp only [txValid, Bool.and_eq_true, Bool.or_eq_true, beq_iff_eq] at ht
            cases h
            exact .inr (.inr (.inr (.inr ⟨hr, he, by simpa using hv, ht.2, rfl, ht.1.2⟩)))
          · cases h

/-- `eventOf` reads the mode and the framer's state alone. -/
theorem eventOf_beginCycle (p : Pins) (s : State) : eventOf p s.beginCycle = eventOf p s := rfl

end Sys2Proof.Machine
end

