-- ==== Sys2Proof/Laws/Step.lean ====
section
/-! SUPPORT. Everything a step can do, said once (42_display.md R121; 70_reset_and_hazards.md R160). -/

namespace Sys2Proof.Machine

/-- The sink takes the byte on offer in the next cycle: the emulated sink always, the real one when it is ready and gives no
verdict (R33, R120, R126). -/
def State.takesByte (s : State) : Prop :=
  s.emulated = true ∨ (s.nextPins.resValid = false ∧ s.nextPins.txReady = true)

/-- The ways one step leads from `s` to `t`. Each constructor is a cell of R121's table, or the cycle in which nothing
happens. -/
inductive StepCase (s t : State) : Prop where
  /-- R160. -/
  | reset (hr : s.nextPins.rst = true) (ht : t = s.beginCycle.applyReset s.nextPins.emulated)
  /-- An accepted word (R31). -/
  | command (hr : s.nextPins.rst = false) (hi : s.fsm = .idle) (hv : s.nextPins.cmdValid = true)
      (ht : runWord s.nextPins.cmdData s.beginCycle = .next t)
  /-- Nothing happens, or a verdict is ignored (R117). -/
  | quiet (hr : s.nextPins.rst = false) (hc : s.fsm = .idle → s.nextPins.cmdValid = false)
      (hb : s.fsm ≠ .idle → s.emulated = false ∧ s.nextPins.resValid = false ∧
        (s.fsm ≠ .result → s.nextPins.txReady = false)) (ht : t = s.beginCycle)
  /-- R112. -/
  | marker (hr : s.nextPins.rst = false) (hf : s.fsm = .sof) (hs : s.takesByte)
      (ht : t = (s.beginCycle.sendBeat s.config.sof).setFramer .data 0)
  /-- R113, but for the last byte. -/
  | payload (hr : s.nextPins.rst = false) (hf : s.fsm = .data) (hs : s.takesByte) (i : Fin 768)
      (hlt : s.txIdx.val < 767) (hi : i.val = s.txIdx.val + 1)
      (ht : t = (s.beginCycle.sendBeat (s.payloadByte s.txIdx.val)).setFramer .data i)
  /-- R113, the last byte. -/
  | lastByte (hr : s.nextPins.rst = false) (hf : s.fsm = .data) (hs : s.takesByte) (hi : s.txIdx.val = 767)
      (ht : t = (s.beginCycle.sendBeat (s.payloadByte s.txIdx.val)).setFramer .result 0)
  /-- R114, success. -/
  | success (hr : s.nextPins.rst = false) (hf : s.fsm = .result)
      (hs : s.emulated = true ∨ (s.nextPins.resValid = true ∧ s.nextPins.resOk = true))
      (ht : t = (s.beginCycle.respond statusOk 0).endFrame)
  /-- R116. -/
  | earlySuccess (hr : s.nextPins.rst = false) (he : s.emulated = false) (hv : s.nextPins.resValid = true)
      (ho : s.nextPins.resOk = true) (hf : s.fsm = .sof ∨ s.fsm = .data)
      (ht : t = (s.beginCycle.raise (.transportError causeShortWrite)).endFrame)
  /-- R114, R115, failure. -/
  | failure (hr : s.nextPins.rst = false) (he : s.emulated = false) (hv : s.nextPins.resValid = true)
      (ho : s.nextPins.resOk = false) (hf : s.fsm ≠ .idle)
      (ht : t = (s.beginCycle.raise (.transportError s.nextPins.resCause)).endFrame)

/-- The framer's own step from a state that has a byte on offer. -/
theorem takeBeat_cases {s t : State} (h : takeBeat s.beginCycle = .next t) (hr : s.nextPins.rst = false)
    (hs : s.takesByte) : StepCase s t := by
  unfold takeBeat at h
  split at h
  · rename_i hf; cases h; exact .marker hr hf hs rfl
  · rename_i hf
    dsimp only at h
    split at h
    · rename_i hlt; cases h; exact .payload hr hf hs _ hlt rfl rfl
    · rename_i hlt; cases h
      have hlt : ¬ s.txIdx.val < 767 := hlt
      exact .lastByte hr hf hs (by omega) rfl
  · cases h
  · cases h

/-- A cycle without an event: no reset, no command to accept, no sink that acts. -/
theorem quiet_of_no_event {s : State} (h : eventOf s.nextPins s = none) : StepCase s s.beginCycle := by
  unfold eventOf at h
  split at h
  · cases h
  · rename_i hr
    have hr : s.nextPins.rst = false := by simpa using hr
    split at h
    · cases h
    · rename_i hc
      refine .quiet hr (fun hi => by simpa [cmdReady, hi, hr] using hc) (fun hi => ?_) rfl
      unfold sinkEvent at h
      split at h
      · unfold emulatedSink at h; split at h <;> simp_all
      · rename_i he
        have he : s.emulated = false := by simpa using he
        split at h
        · cases h
        · rename_i hv
          refine ⟨he, by simpa using hv, fun hn => ?_⟩
          split at h
          · cases h
          · rename_i ht
            have hf : s.fsm = .sof ∨ s.fsm = .data := by
              cases hf : s.fsm <;> simp_all
            have hv' : txValid s.nextPins s = true := by
              rcases hf with hf | hf <;> simp [txValid, hr, he, hf]
            simpa [hv'] using ht

/-- The inversion lemma of the step. -/
theorem step_cases {s t : State} (h : step s = .next t) : StepCase s t := by
  unfold step runCycle at h
  rw [eventOf_beginCycle] at h
  split at h
  · rename_i hn; cases h; exact quiet_of_no_event hn
  · rename_i e he
    unfold takeEvent at h
    split at h
    · rcases eventOf_cases he with ⟨rfl, hr⟩ | ⟨hr, rfl, hv, hi⟩ | ⟨hr, hem, (⟨rfl, hf⟩ | ⟨rfl, hf⟩)⟩ | ⟨hr, hem, hv, rfl⟩ |
        ⟨hr, hem, hv, hx, rfl, hf⟩
      · cases h; exact .reset hr rfl
      · exact .command hr hi hv h
      · exact takeBeat_cases h hr (.inl hem)
      · have hf' : s.beginCycle.fsm = .result := hf
        simp only [takeSinkOk, hf'] at h
        cases h; exact .success hr hf (.inl hem) rfl
      · have hc : s.fsm = .idle → s.nextPins.cmdValid = false := by
          intro hi
          by_contra hv'
          have hv' : s.nextPins.cmdValid = true := by simpa using hv'
          simp [eventOf, hr, hv', cmdReady, hi, verdict] at he
          split at he <;> cases he
        have busy : ∀ f : Fsm, s.fsm = f → f ≠ .idle → s.fsm ≠ .idle := fun f hf hn hi => hn (hf ▸ hi)
        unfold verdict at h
        by_cases ho : s.nextPins.resOk = true
        · rw [if_pos ho] at h
          simp only [takeSinkOk, beginCycle_fsm] at h
          cases hf : s.fsm <;> rw [hf] at h <;> cases h
          · exact .quiet hr hc (fun hb => absurd hf hb) rfl
          · exact .earlySuccess hr hem hv ho (.inl hf) rfl
          · exact .earlySuccess hr hem hv ho (.inr hf) rfl
          · exact .success hr hf (.inr ⟨hv, ho⟩) rfl
        · rw [if_neg ho] at h
          simp only [takeSinkFail, beginCycle_fsm] at h
          have ho : s.nextPins.resOk = false := by simpa using ho
          cases hf : s.fsm <;> rw [hf] at h <;> cases h
          · exact .quiet hr hc (fun hb => absurd hf hb) rfl
          · exact .failure hr hem hv ho (busy _ hf (by decide)) rfl
          · exact .failure hr hem hv ho (busy _ hf (by decide)) rfl
          · exact .failure hr hem hv ho (busy _ hf (by decide)) rfl
      · exact takeBeat_cases h hr (.inr ⟨hv, hx⟩)
    · cases h

end Sys2Proof.Machine
end

