-- ==== Sys2Proof/Laws/Command.lean ====
section
/-! SUPPORT. Everything an accepted command word can do, said once (40_pixel_access.md, 41_rotation.md, 42_display.md R109;
60_exceptions.md R146). -/

namespace Sys2Proof.Machine

/-- The ways an accepted word leads from `s` to `t`: one constructor for each command that succeeds, one for each condition
met in the accepting step. -/
inductive WordCase (w : CmdWord) (s t : State) : Prop where
  | illegal (r : Reject) (hd : decode w = .error r) (ht : t = s.raise .illegalCommand)
  | setpix (x y : Byte) (pix : Pixel) (a : CellAddr) (hd : decode w = .ok (.setpix x y pix))
      (ha : s.cellFor x y = some a) (ht : t = (s.writeCell a pix).respond statusOk 0)
  | setpixOut (x y : Byte) (pix : Pixel) (hd : decode w = .ok (.setpix x y pix))
      (ha : s.cellFor x y = none) (ht : t = s.raise .indexOutOfBounds)
  | getpix (x y : Byte) (a : CellAddr) (hd : decode w = .ok (.getpix x y))
      (ha : s.cellFor x y = some a) (ht : t = s.respond statusOk (s.readCell a))
  | getpixOut (x y : Byte) (hd : decode w = .ok (.getpix x y))
      (ha : s.cellFor x y = none) (ht : t = s.raise .indexOutOfBounds)
  | setrot (angle : BitVec 16) (q : Rotation) (hd : decode w = .ok (.setrot angle))
      (hq : decodeAngle angle = some q) (ht : t = (s.setRotation q).respond statusOk 0)
  | setrotBad (angle : BitVec 16) (hd : decode w = .ok (.setrot angle))
      (hq : decodeAngle angle = none) (ht : t = s.raise .invalidRotation)
  | display (hd : decode w = .ok .display) (ht : t = s.setFramer .sof 0)

/-- The inversion lemma of an accepted word. -/
theorem runWord_cases {w : CmdWord} {s t : State} (h : runWord w s = .next t) : WordCase w s t := by
  unfold runWord at h
  split at h
  · rename_i r hd; cases h; exact .illegal r hd rfl
  · rename_i i hd
    cases i with
    | setpix x y pix =>
      simp only [exec, execSetpix] at h
      split at h
      · rename_i ha; cases h; exact .setpixOut x y pix hd ha rfl
      · rename_i a ha; cases h; exact .setpix x y pix a hd ha rfl
    | getpix x y =>
      simp only [exec, execGetpix] at h
      split at h
      · rename_i ha; cases h; exact .getpixOut x y hd ha rfl
      · rename_i a ha; cases h; exact .getpix x y a hd ha rfl
    | setrot angle =>
      simp only [exec, execSetrot] at h
      split at h
      · rename_i hq; cases h; exact .setrotBad angle hd hq rfl
      · rename_i q hq; cases h; exact .setrot angle q hd hq rfl
    | display =>
      simp only [exec, execDisplay] at h
      cases h; exact .display hd rfl

end Sys2Proof.Machine
end

