-- ==== Sys2Proof/Laws/Fields.lean ====
section
/-! SUPPORT. A command word as the bytes it is written from, and the fields of such a word (30_encoding.md R61, R62, R73). -/

namespace Sys2Proof

/-- A command word written as R73 writes it: opcode, two bytes, three low bytes. -/
def wordOf (op x y : Byte) (z : BitVec 24) : CmdWord := op ++ x ++ y ++ z

@[simp] theorem opField_wordOf (op x y : Byte) (z : BitVec 24) : opField (wordOf op x y z) = op := by
  apply BitVec.eq_of_getLsbD_eq
  intro i hi
  simp only [wordOf, opField, BitVec.getLsbD_extractLsb', BitVec.getLsbD_append, hi, decide_true, Bool.true_and]
  split
  · omega
  · split
    · omega
    · split
      · omega
      · congr 1; omega

@[simp] theorem xField_wordOf (op x y : Byte) (z : BitVec 24) : xField (wordOf op x y z) = x := by
  apply BitVec.eq_of_getLsbD_eq
  intro i hi
  simp only [wordOf, xField, BitVec.getLsbD_extractLsb', BitVec.getLsbD_append, hi, decide_true, Bool.true_and]
  split
  · omega
  · split
    · omega
    · split
      · congr 1; omega
      · omega

@[simp] theorem yField_wordOf (op x y : Byte) (z : BitVec 24) : yField (wordOf op x y z) = y := by
  apply BitVec.eq_of_getLsbD_eq
  intro i hi
  simp only [wordOf, yField, BitVec.getLsbD_extractLsb', BitVec.getLsbD_append, hi, decide_true, Bool.true_and]
  split
  · omega
  · split
    · congr 1; omega
    · omega

@[simp] theorem lowField_wordOf (op x y : Byte) (z : BitVec 24) : lowField (wordOf op x y z) = z := by
  apply BitVec.eq_of_getLsbD_eq
  intro i hi
  simp only [wordOf, lowField, BitVec.getLsbD_extractLsb', BitVec.getLsbD_append, hi, decide_true, Bool.true_and]
  split
  · congr 1; omega
  · omega

/-- Every word is written from its fields. -/
theorem wordOf_fields (w : CmdWord) : wordOf (opField w) (xField w) (yField w) (lowField w) = w := by
  apply BitVec.eq_of_getLsbD_eq
  intro i hi
  simp only [wordOf, opField, xField, yField, lowField, BitVec.getLsbD_extractLsb', BitVec.getLsbD_append]
  split
  · simp [*]
  · split
    · simp only [*, decide_true, Bool.true_and]; congr 1; omega
    · split
      · simp only [*, decide_true, Bool.true_and]; congr 1; omega
      · have h8 : i - 24 - 8 - 8 < 8 := by omega
        simp only [h8, decide_true, Bool.true_and]; congr 1; omega

/-- The angle field is the two coordinate bytes read as one number, most significant first (R42, R61). -/
theorem angleField_wordOf (op x y : Byte) (z : BitVec 24) : angleField (wordOf op x y z) = x ++ y := by
  apply BitVec.eq_of_getLsbD_eq
  intro i hi
  simp only [wordOf, angleField, BitVec.getLsbD_extractLsb', BitVec.getLsbD_append, hi, decide_true, Bool.true_and]
  have h24 : ¬ 24 + i < 24 := by omega
  rw [if_neg h24]
  have e : 24 + i - 24 = i := by omega
  rw [e]
  split
  · rfl
  · have h8 : i - 8 < 8 := by omega
    simp [h8]

/-- Equal words have equal fields. -/
theorem wordOf_inj {op x y op' x' y' : Byte} {z z' : BitVec 24} (h : wordOf op x y z = wordOf op' x' y' z') :
    op = op' ∧ x = x' ∧ y = y' ∧ z = z' :=
  ⟨by simpa using congrArg opField h, by simpa using congrArg xField h, by simpa using congrArg yField h,
    by simpa using congrArg lowField h⟩

/-- A mask over a word is a mask over each of its fields. -/
theorem wordOf_and (op x y m mx my : Byte) (z mz : BitVec 24) :
    wordOf op x y z &&& wordOf m mx my mz = wordOf (op &&& m) (x &&& mx) (y &&& my) (z &&& mz) := by
  apply BitVec.eq_of_getLsbD_eq
  intro i hi
  rw [BitVec.getLsbD_and]
  simp only [wordOf, BitVec.getLsbD_append]
  split
  · rw [BitVec.getLsbD_and]
  · split
    · rw [BitVec.getLsbD_and]
    · split <;> rw [BitVec.getLsbD_and]

/-- The words of R73, format by format. -/
theorem encode_setpix (x y : Byte) (pix : Pixel) : encode (.setpix x y pix) = wordOf 0x01#8 x y pix := rfl
theorem encode_getpix (x y : Byte) : encode (.getpix x y) = wordOf 0x02#8 x y 0 := rfl
theorem encode_display : encode .display = wordOf 0x04#8 0 0 0 := by decide
theorem encode_setrot (angle : BitVec 16) :
    encode (.setrot angle) = wordOf 0x03#8 (angle.extractLsb' 8 8) (angle.extractLsb' 0 8) 0 := by
  have h : angle = angle.extractLsb' 8 8 ++ angle.extractLsb' 0 8 := by
    apply BitVec.eq_of_getLsbD_eq
    intro i hi
    simp only [BitVec.getLsbD_extractLsb', BitVec.getLsbD_append]
    split
    · simp [*]
    · have h8 : i - 8 < 8 := by omega
      simp only [h8, decide_true, Bool.true_and]; congr 1; omega
  apply BitVec.eq_of_getLsbD_eq
  intro i hi
  conv_lhs => rw [h]
  simp only [encode, wordOf, BitVec.getLsbD_append]
  split
  · rfl
  · split
    · split
      · rfl
      · have h8 : i - 24 - 8 < 8 := by omega
        rw [if_pos h8]
    · have h8 : ¬ i - 24 < 8 := by omega
      have h16 : ¬ i - 24 - 8 < 8 := by omega
      rw [if_neg h8, if_neg h16]; congr 1

end Sys2Proof
end

