-- ==== Sys2Proof/Laws/PerInstr.lean ====
section
/-! SUPPORT. Facts about every instruction as syntax, one lemma for each constructor. -/

namespace Sys2Proof.Laws.TableRow

/-- The word of an instruction is covered by the row of R63's opcode map that carries its mnemonic, and by no other row. -/
def Statement (i : Instr) : Prop :=
  ∀ row ∈ opcodeMap, row.covers (encode i) = (row.mnemonic == i.mnemonic)

/-- R63's masks and patterns, field by field. -/
theorem covers_iff (op x y : Byte) (z : BitVec 24) :
    ∀ row ∈ opcodeMap, row.covers (wordOf op x y z) =
      if row.mnemonic = "SETPIX" then op == 0x01#8
      else if row.mnemonic = "GETPIX" then op == 0x02#8 && z == 0
      else if row.mnemonic = "SETROT" then op == 0x03#8 && z == 0
      else op == 0x04#8 && x == 0 && y == 0 && z == 0 := by
  have masks : (0xFF0000000000#48 = wordOf 0xFF 0 0 0) ∧ (0xFF0000FFFFFF#48 = wordOf 0xFF 0 0 0xFFFFFF) ∧
      (0xFFFFFFFFFFFF#48 = wordOf 0xFF 0xFF 0xFF 0xFFFFFF) ∧ (0x010000000000#48 = wordOf 0x01 0 0 0) ∧
      (0x020000000000#48 = wordOf 0x02 0 0 0) ∧ (0x030000000000#48 = wordOf 0x03 0 0 0) ∧
      (0x040000000000#48 = wordOf 0x04 0 0 0) := by decide
  obtain ⟨m1, m2, m3, p1, p2, p3, p4⟩ := masks
  have ones : ∀ v : Byte, v &&& 0xFF = v := fun v => BitVec.and_allOnes
  have ones24 : ∀ v : BitVec 24, v &&& 0xFFFFFF = v := fun v => BitVec.and_allOnes
  have eqs : ∀ (a b c a' b' c' : Byte) (d d' : BitVec 24), (wordOf a b c d == wordOf a' b' c' d') =
      (a == a' && b == b' && c == c' && d == d') := by
    intro a b c a' b' c' d d'
    rw [Bool.eq_iff_iff]
    simp only [beq_iff_eq, Bool.and_eq_true]
    constructor
    · intro h; obtain ⟨rfl, rfl, rfl, rfl⟩ := wordOf_inj h; simp
    · rintro ⟨⟨⟨rfl, rfl⟩, rfl⟩, rfl⟩; rfl
  intro row h
  simp only [opcodeMap, List.mem_cons, List.not_mem_nil, or_false] at h
  rcases h with rfl | rfl | rfl | rfl
  · simp only [OpcodeRow.covers, m1, p1, wordOf_and, eqs, ones]; simp
  · simp only [OpcodeRow.covers, m2, p2, wordOf_and, eqs, ones, ones24]; simp
  · simp only [OpcodeRow.covers, m2, p3, wordOf_and, eqs, ones, ones24]; simp
  · simp only [OpcodeRow.covers, m3, p4, wordOf_and, eqs, ones, ones24]; simp

theorem setpix (x y : Byte) (pix : Pixel) : Statement (.setpix x y pix) := by
  intro row h
  rw [encode_setpix, covers_iff _ _ _ _ row h]
  simp only [opcodeMap, List.mem_cons, List.not_mem_nil, or_false] at h
  rcases h with rfl | rfl | rfl | rfl <;> simp [Instr.mnemonic]

theorem getpix (x y : Byte) : Statement (.getpix x y) := by
  intro row h
  rw [encode_getpix, covers_iff _ _ _ _ row h]
  simp only [opcodeMap, List.mem_cons, List.not_mem_nil, or_false] at h
  rcases h with rfl | rfl | rfl | rfl <;> simp [Instr.mnemonic]

theorem setrot (angle : BitVec 16) : Statement (.setrot angle) := by
  intro row h
  rw [encode_setrot, covers_iff _ _ _ _ row h]
  simp only [opcodeMap, List.mem_cons, List.not_mem_nil, or_false] at h
  rcases h with rfl | rfl | rfl | rfl <;> simp [Instr.mnemonic]

theorem display : Statement .display := by
  intro row h
  rw [encode_display, covers_iff _ _ _ _ row h]
  simp only [opcodeMap, List.mem_cons, List.not_mem_nil, or_false] at h
  rcases h with rfl | rfl | rfl | rfl <;> simp [Instr.mnemonic]

end Sys2Proof.Laws.TableRow
end

