-- ==== Sys2Proof/Tests/Slice0.lean ====
section
/-! SUPPORT. Tests, with results from 95_test_vectors.md and the rules' own examples, and for each statement with hypotheses
a witness that meets them. -/

namespace Sys2Proof.Tests

open Sys2Proof Sys2Proof.Machine

/-! ### Helpers -/

/-- The decided parameters with the marker at the value that 95_test_vectors.md uses where a literal is needed. -/
def cfg : Config := { sof := 0x72#8, scanOrder := .rowMajor, rotStage := .serialize }

/-- The reset state with the real sink and the given pins to come. -/
def start (ins : List Pins) : State := { State.resetWith cfg false with inputs := ins }

/-- A cycle in which the real sink is ready for a byte. -/
def ready : Pins := { Pins.quiet with txReady := true }

/-- A cycle in which the real sink says success, and one in which it fails with a cause. -/
def verdictPins (ok : Bool) (cause : Byte) : Pins := { Pins.quiet with resValid := true, resOk := ok, resCause := cause }

/-- `start` with a pixel stored, a rotation and a place in a frame. -/
def inFlight (f : Fsm) (i : Fin 768) (q : Rotation) (ins : List Pins) : State :=
  { start ins with cells := [(83, 0x0A141E#24)], fsm := f, txIdx := i, rotation := q }

/-- What a test looks at after one step: the framer, the response, the beat. -/
def seen (s : State) : Option (Fsm × Fin 768 × Option RspWord × Option Beat) :=
  match step s with
  | .next t => some (t.fsm, t.txIdx, t.rsp, t.beat)
  | _ => none

/-- The store, the rotation and the response after one step. -/
def stored (s : State) : Option (Memory × Rotation × Option RspWord) :=
  match step s with
  | .next t => some (t.cells, t.rotation, t.rsp)
  | _ => none

/-! ### WellFormed refuses what does not fit (R73) -/

theorem test_wf_setpix_x : (SourceLine.setpix 256 0 0 0 0).wellFormed = false := by decide
theorem test_wf_setpix_y : (SourceLine.setpix 0 256 0 0 0).wellFormed = false := by decide
theorem test_wf_setpix_r : (SourceLine.setpix 0 0 256 0 0).wellFormed = false := by decide
theorem test_wf_setpix_g : (SourceLine.setpix 0 0 0 256 0).wellFormed = false := by decide
theorem test_wf_setpix_b : (SourceLine.setpix 0 0 0 0 256).wellFormed = false := by decide
theorem test_wf_hash_x : (SourceLine.setpixHash 256 0 0).wellFormed = false := by decide
theorem test_wf_hash_y : (SourceLine.setpixHash 0 256 0).wellFormed = false := by decide
theorem test_wf_hash_rgb : (SourceLine.setpixHash 0 0 0x1000000).wellFormed = false := by decide
theorem test_wf_getpix_x : (SourceLine.getpix 256 0).wellFormed = false := by decide
theorem test_wf_getpix_y : (SourceLine.getpix 0 256).wellFormed = false := by decide
theorem test_wf_setrot : (SourceLine.setrot 65536).wellFormed = false := by decide
theorem test_wf_word : (SourceLine.word 0x1000000000000).wellFormed = false := by decide

/-! ### Decoding: words written out from R61's formats (table V-D) -/

theorem test_decode_setpix : decode 0b000000010000001100000101000010100001010000011110#48 = .ok (.setpix 3 5 0x0A141E#24) := by
  decide
theorem test_decode_getpix : decode 0b000000100000001100000101000000000000000000000000#48 = .ok (.getpix 3 5) := by decide
theorem test_decode_setrot : decode 0b000000110000000100001110000000000000000000000000#48 = .ok (.setrot 270) := by decide
theorem test_decode_display : decode 0b000001000000000000000000000000000000000000000000#48 = .ok .display := by decide
theorem test_decode_setrot_reserved : decode 0x03005A000001#48 = .error .reservedBits := by decide
theorem test_decode_unassigned : decode 0xFFFFFFFFFFFF#48 = .error .unassignedOpcode := by decide
theorem test_table_word : decodeTableWord 48 0x010000FF0000 = some (.setpix 0 0 0xFF0000#24) := by decide

/-! ### Text (R73, R74; program P4's first line, P3's words) -/

theorem test_text_setpix : Text.parseLine "SETPIX 15, 15, 0xAA, 0xBB, 0xCC   ; 0x010F0FAABBCC".toList =
    some (.setpix 15 15 0xAA 0xBB 0xCC) := by decide
theorem test_text_bracket : Text.parseLine "SETPIX 0, 0, [255, 0, 0]".toList = some (.setpix 0 0 255 0 0) := by decide
theorem test_text_hash : Text.parseLine "SETPIX 3,5,#0a141E".toList = some (.setpixHash 3 5 0x0A141E) := by decide
theorem test_text_word : Text.parseLine ".word 0x020000000001".toList = some (.word 0x020000000001) := by decide
theorem test_text_reset : Text.parseLine "RESET emulated".toList = some (.reset true) := by decide
theorem test_text_bad : Text.parseLine "SETPIX 0, 0, [255, 0, 0".toList = none := by decide
theorem test_assemble_setpix : (SourceLine.setpix 3 5 10 20 30).commandWord = some 0x0103050A141E#48 := by decide

/-! ### Commands, one step each -/

/-- R80's example. -/
theorem test_setpix : stored (start [Pins.present 0x0103050A141E#48]) = some ([(83, 0x0A141E#24)], 0, some 0) := by decide
/-- Table V-B: not `cells[240]`, which wrapping would hit. -/
theorem test_setpix_out : stored (start [Pins.present 0x01100F010203#48]) = some ([], 0, some 0x01000000#32) := by decide
/-- R81's example. -/
theorem test_getpix : stored { start [Pins.present 0x020305000000#48] with cells := [(83, 0x0A141E#24)] } =
    some ([(83, 0x0A141E#24)], 0, some 0x000A141E#32) := by decide
/-- Program P2 under ACCESS: at 90 degrees `(3, 5)` is cell 58. -/
theorem test_getpix_access :
    stored { start [Pins.present 0x020305000000#48] with
      cells := [(58, 1#24), (83, 0x0A141E#24)], rotation := 1, config := { cfg with rotStage := .access } } =
    some ([(58, 1#24), (83, 0x0A141E#24)], 1, some 0x00000001#32) := by decide
/-- Table V-A, from `rotation = 0b10`. -/
theorem test_setrot : stored { start [Pins.present 0x03010E000000#48] with rotation := 2 } = some ([], 3, some 0) := by decide
theorem test_setrot_bad : stored { start [Pins.present 0x030168000000#48] with rotation := 2 } =
    some ([], 2, some 0x02000000#32) := by decide
/-- Table V-F, first row. -/
theorem test_display : seen (start [Pins.present 0x040000000000#48]) = some (.sof, 0, none, none) := by decide
/-- Program P3: a DISPLAY word with a reserved bit sends no frame. -/
theorem test_illegal : seen (start [Pins.present 0x040000000001#48]) = some (.idle, 0, some 0x04000000#32, none) := by decide
/-- The word placed for the next step is accepted there, even in a busy state. -/
theorem test_fetch_word : stored ((inFlight .data 5 2 []).withFetchWord 48 0x030000000000) =
    some ([(83, 0x0A141E#24)], 0, some 0) := by decide

/-! ### The framer, one step each (table V-F), and the frame (tables V-T, V-O, V-S) -/

theorem test_marker : seen (inFlight .sof 0 0 [ready]) =
    some (.data, 0, none, some { byte := 0x72#8, first := true, last := false }) := by decide
theorem test_last_byte : seen (inFlight .data 767 0 [ready]) =
    some (.result, 0, none, some { byte := 0#8, first := false, last := true }) := by decide
theorem test_early_success : seen (inFlight .data 767 0 [verdictPins true 9]) = some (.idle, 0, some 0x03000003#32, none) := by decide
theorem test_sink_fail : seen (inFlight .data 99 0 [verdictPins false 4]) = some (.idle, 0, some 0x03000004#32, none) := by decide
theorem test_verdict_ok : seen (inFlight .result 0 0 [verdictPins true 0]) = some (.idle, 0, some 0, none) := by decide
theorem test_emulated_beat : seen { inFlight .sof 0 0 [verdictPins false 1] with emulated := true } = some (.data, 0, none, none) := by
  decide
theorem test_busy_command : seen (inFlight .sof 0 0 [Pins.present 0x0103050A141E#48]) = some (.sof, 0, none, none) := by decide
theorem test_reset_in_frame : (match step (inFlight .data 10 1 [Pins.resetting true]) with
    | .next t => some (t.cells, t.rotation, t.fsm, t.txIdx, t.emulated)
    | _ => none) = some ([], 0, .idle, 0, true) := by decide
/-- Table V-S: `cells[83]` at each rotation. -/
theorem test_frame_positions :
    (inFlight .sof 0 0 []).frameByte 250 = 0x0A#8 ∧ (inFlight .sof 0 1 []).frameByte 176 = 0x14#8 ∧
    (inFlight .sof 0 2 []).frameByte 519 = 0x1E#8 ∧ (inFlight .sof 0 3 []).frameByte 592 = 0x0A#8 := by decide
/-- Table V-T. -/
theorem test_transform : rotT 1 3 5 = (10, 3) ∧ rotT 2 3 5 = (12, 10) ∧ rotT 3 3 5 = (5, 12) := by decide
/-- Table V-O, and its column exchange under COL_MAJOR. -/
theorem test_out_src : outSrc cfg 1 100 = 182 ∧ outSrc cfg 3 17 = 30 ∧
    outSrc { cfg with scanOrder := .colMajor } 1 58 = 172 := by decide

/-! ### Witnesses: every statement with hypotheses has states and operands that meet them all -/

theorem witness_DecodeEncodeRoundTrip : (Instr.setpix 255 255 0xFFFFFF#24).wellFormed = true := by decide
theorem witness_EncodeDecodeRoundTrip : decode 0x03010E000000#48 = .ok (.setrot 270) := by decide
theorem witness_OpcodeMapSaysWhatDecodes :
    ∃ row ∈ opcodeMap, row.covers 0x02FFFF000000#48 = true ∧ decode 0x02FFFF000000#48 = .ok (.getpix 255 255) := by decide
theorem witness_IllegalWordsRaiseIllegalCommand :
    (start [Pins.present 0x050000000000#48]).accepts = some 0x050000000000#48 ∧
    decode 0x050000000000#48 = .error .unassignedOpcode ∧ decode 0x040000000001#48 = .error .reservedBits ∧
    decode 0x020000800000#48 = .error .reservedBits ∧ decode 0x00FFFFFFFFFF#48 = .error .unassignedOpcode := by decide
theorem witness_SourceLinesAssemble :
    (SourceLine.setpix 255 255 255 255 255).wellFormed = true ∧ (SourceLine.setpixHash 255 255 0xFFFFFF).wellFormed = true ∧
    (SourceLine.getpix 255 255).wellFormed = true ∧ (SourceLine.setrot 65535).wellFormed = true ∧
    (SourceLine.word 0xFFFFFFFFFFFF).wellFormed = true := by decide
theorem witness_StepRunsTheDecodedCommand :
    (start [Pins.present 0x040000000000#48]).fsm = .idle ∧
    (start [Pins.present 0x040000000000#48]).inputs = Pins.present 0x040000000000#48 :: [] ∧
    (Pins.present 0x040000000000#48).rst = false ∧ (Pins.present 0x040000000000#48).cmdValid = true ∧
    decode (Pins.present 0x040000000000#48).cmdData = .ok .display := by decide
theorem witness_CommandPortHandshake :
    cmdReady Pins.quiet (inFlight .data 0 0 []) = false ∧ cmdReady (Pins.resetting true) (start []) = false ∧
    cmdReady Pins.quiet (start []) = true := by decide
theorem witness_TransmitPortHandshake :
    Pins.quiet.rst = false ∧ (Pins.resetting false).rst = true ∧
    (match step (inFlight .data 767 0 [ready]) with
      | .next t => t.beat
      | _ => none) = some { byte := 0#8, first := false, last := true } := by decide
theorem witness_VerdictWinsOverBeat :
    (inFlight .data 767 0 [{ verdictPins true 9 with txReady := true }]).inputs = { verdictPins true 9 with txReady := true } :: [] ∧
    (verdictPins true 9).rst = false ∧ txValid { verdictPins true 9 with txReady := true } (inFlight .data 767 0 []) = true ∧
    (verdictPins true 9).resValid = true ∧ (verdictPins false 9).resOk = false := by decide
theorem witness_EmulatedModeIgnoresTheSinkPorts :
    ({ inFlight .result 0 0 [] with emulated := true }).emulated = true ∧ (verdictPins false 1).rst = ready.rst ∧
    (verdictPins false 1).emulated = ready.emulated ∧ (verdictPins false 1).cmdValid = ready.cmdValid ∧
    (verdictPins false 1).cmdData = ready.cmdData := by decide
theorem witness_StrapIsSampledByResetOnly :
    ({ Pins.quiet with emulated := true }).rst = false ∧
    step (start [{ Pins.quiet with emulated := true }]) matches .next _ := by decide
theorem witness_SetpixWritesOneCell :
    (start []).cells.wf = true ∧ (0x0F#8).toNat < 16 ∧ (0x00#8).toNat < 16 ∧ (255 : CellAddr) ≠ 15 := by decide
theorem witness_GetpixReadsWithoutSideEffect : (0x0F#8).toNat < 16 ∧ (0x00#8).toNat < 16 := by decide
theorem witness_OutOfRangeCoordinatesRaise : 16 ≤ (0x10#8).toNat ∨ 16 ≤ (0xFF#8).toNat := by decide
theorem witness_AngleDecodeTable :
    (360#16).toNat ≠ 0 ∧ (360#16).toNat ≠ 90 ∧ (360#16).toNat ≠ 180 ∧ (360#16).toNat ≠ 270 := by decide
theorem witness_SetrotMovesNoPixel :
    (exec (.setrot 90) (start []) matches .next _) ∧ (start []).config.rotStage = .serialize ∧
    (exec (.getpix 15 15) (start []) matches .next _) ∧
    ({ start [] with config := { cfg with rotStage := .access } }).config.rotStage = .access := by decide
theorem witness_SetpixLeavesOtherCoordinates :
    (start []).cells.wf = true ∧ (15#8).toNat < 16 ∧ (0#8).toNat < 16 ∧ ((15#8 : Byte) ≠ 0 ∨ (0#8 : Byte) ≠ 0) ∧
    (exec (.setpix 0 0 7) (start []) matches .next _) := by decide
theorem witness_WriteReadRoundTrip :
    ∃ t, (start [Pins.present 0x010F00010203#48, ready]).cells.wf = true ∧ (15#8).toNat < 16 ∧ (15#8).toNat < 16 ∧
      exec (.setpix 15 15 7) (start [Pins.present 0x010F00010203#48, ready]) = .next t ∧
      (∀ p ∈ t.inputs.take 2, p.rst = false ∧
        (p.cmdValid = true → (∀ c : Pixel, decode p.cmdData ≠ .ok (.setpix 15 15 c)) ∧
          ((start []).config.rotStage = .access → ∀ angle, decode p.cmdData ≠ .ok (.setrot angle)))) := by
  have hd : decode 0x010F00010203#48 = .ok (.setpix 15 0 0x010203#24) := by decide
  refine ⟨_, by decide, by decide, by decide, rfl, ?_⟩
  intro p hp
  have hl : p ∈ [Pins.present 0x010F00010203#48, ready] := hp
  have hp' : p = Pins.present 0x010F00010203#48 ∨ p = ready := by simpa using hl
  rcases hp' with rfl | rfl
  · exact ⟨rfl, fun _ => ⟨fun c h => by simp [Pins.present, hd] at h, fun h => by cases h⟩⟩
  · exact ⟨rfl, fun h => by cases h⟩
theorem witness_DefaultPixelsAreBlack :
    (15#8).toNat < 16 ∧ (0#8).toNat < 16 ∧
    (∀ p ∈ [Pins.present 0x03005A000000#48, ready].take 2, p.cmdValid = true →
      ∀ (x y : Byte) (pix : Pixel), decode p.cmdData ≠ .ok (.setpix x y pix)) := by
  have hd : decode 0x03005A000000#48 = .ok (.setrot 90) := by decide
  refine ⟨by decide, by decide, ?_⟩
  intro p hp
  have hp' : p = Pins.present 0x03005A000000#48 ∨ p = ready := by simpa using hp
  rcases hp' with rfl | rfl
  · intro _ x y pix h; simp [Pins.present, hd] at h
  · intro h; cases h
theorem witness_StatusCodesAreTheFive :
    (match step (inFlight .data 99 0 [verdictPins false 255]) with
      | .next t => t.rsp
      | _ => none) = some 0x030000FF#32 ∧
    rspStatus 0x030000FF#32 = 0x03#8 ∧ rspStatus 0x04000000#32 = 0x04#8 := by decide
theorem witness_FailedCommandsLeaveNoTrace :
    (start [Pins.present 0x030168000000#48]).accepts = some 0x030168000000#48 ∧
    (match step (start [Pins.present 0x030168000000#48]) with
      | .next t => t.rsp
      | _ => none) = some 0x02000000#32 ∧ rspStatus 0x02000000#32 ≠ 0x00#8 := by decide
theorem witness_ResetValues :
    (inFlight .data 10 1 [Pins.resetting true]).inputs = Pins.resetting true :: [] ∧ (Pins.resetting true).rst = true ∧
    Pins.quiet.rst = false := by decide
theorem witness_EveryStepKeepsTheInvariant :
    (inFlight .data 767 1 [ready]).Inv ∧ (step (inFlight .data 767 1 [ready]) matches .next _) := by
  refine ⟨⟨by decide, fun h => absurd rfl h⟩, by decide⟩
theorem witness_StoresThatReadAlikeAreEqual :
    Memory.wf [(0, 1#24), (255, 2#24)] = true ∧
    ∀ a : Nat, Memory.read [(0, 1#24), (255, 2#24)] a = Memory.read [(0, 1#24), (255, 2#24)] a :=
  ⟨by decide, fun _ => rfl⟩
theorem witness_DisplayIsReadOnly :
    (step (inFlight .data 767 1 [ready]) matches .next _) ∧ (inFlight .data 767 1 [ready]).nextPins.rst = false ∧
    (inFlight .data 767 1 [ready]).fsm ≠ .idle ∧ (start [verdictPins true 0]).accepts = none ∧
    (start [Pins.present (encode .display)]).accepts = some (encode .display) := by decide
theorem witness_WhoWritesStoreAndRotation :
    (match step (start [Pins.present 0x010F0F010203#48]) with
      | .next t => decide (t.cells ≠ (start []).cells)
      | _ => false) = true ∧
    (match step (start [Pins.present 0x03010E000000#48]) with
      | .next t => decide (t.rotation ≠ (start []).rotation)
      | _ => false) = true ∧ (start []).cells.wf = true ∧ ((start []).fsm ≠ .data → (start []).txIdx = 0) := by decide
theorem witness_AddressFunctionsByStage :
    cfg.rotStage = .serialize ∧ ({ cfg with rotStage := .access } : Config).rotStage = .access := by decide
theorem witness_DecoderIsABijection : (1 : Rotation) ≠ 0 ∧ (2 : Rotation) ≠ 3 := by decide
theorem witness_FrameShowsWhatGetpixReads : (15#8).toNat < 16 ∧ (0#8).toNat < 16 := by decide
/-- At 90 degrees the logical pixel `(3, 5)` is cell 83 under SERIALIZE and cell 58 under ACCESS (table V-O). -/
theorem witness_DesignsAgreeUnderOneRotation :
    let s : State := { inFlight .data 174 1 [ready] with cells := [(83, 0x0A141E#24)] }
    let u : State := { s with cells := [(58, 0x0A141E#24)], config := { s.config with rotStage := .access } }
    s.config.rotStage = .serialize ∧ s.Inv ∧ u.cells.wf = true ∧
    u = { s with cells := u.cells, config := { s.config with rotStage := .access } } ∧
    (∀ x y : Coord, s.readCell (accAddr s.config s.rotation x y) = u.readCell (accAddr u.config u.rotation x y)) ∧
    (∀ p ∈ s.inputs.take 1, p.cmdValid = true → ∀ angle, decode p.cmdData ≠ .ok (.setrot angle)) := by
  refine ⟨rfl, ⟨by decide, fun h => absurd rfl h⟩, by decide, rfl, by decide, ?_⟩
  intro p hp
  have hp' : p = ready := by simpa [inFlight, start] using hp
  subst hp'; intro h; cases h
theorem witness_PayloadBytes : 767 < 768 ∧ 767 % 3 = 2 ∧ 766 % 3 = 1 ∧ 765 % 3 = 0 := by decide
theorem witness_FrameIsMarkerAndPayload : 1 ≤ 768 ∧ 768 ≤ 768 := by decide
theorem witness_WorkedFrame :
    let s : State := { start [] with cells := [(0, 0xFF0000#24)] }
    s.rotation = 0 ∧ s.readCell (accAddr s.config 0 0 0) = 0xFF0000#24 ∧
    (∀ a : CellAddr, a ≠ accAddr s.config 0 0 0 → s.readCell a = 0x000000#24) := by decide
theorem witness_MarkerBeat :
    (inFlight .sof 0 0 [ready]).emulated = false ∧ (inFlight .sof 0 0 [ready]).fsm = .sof ∧
    (inFlight .sof 0 0 [ready]).inputs = ready :: [] ∧ ready.rst = false ∧ ready.resValid = false ∧ ready.txReady = true := by
  decide
theorem witness_PayloadBeat :
    (inFlight .data 766 0 [ready]).emulated = false ∧ (inFlight .data 766 0 [ready]).fsm = .data ∧
    (inFlight .data 766 0 [ready]).inputs = ready :: [] ∧ ready.rst = false ∧ ready.resValid = false ∧
    ready.txReady = true ∧ (inFlight .data 766 0 [ready]).txIdx.val < 767 ∧ (767 : Fin 768).val = 766 + 1 ∧
    (inFlight .data 767 0 [ready]).txIdx.val = 767 := by decide
theorem witness_VerdictInResult :
    (inFlight .result 0 0 [verdictPins true 0]).emulated = false ∧ (inFlight .result 0 0 [verdictPins true 0]).fsm = .result ∧
    (inFlight .result 0 0 [verdictPins true 0]).txIdx = 0 ∧ (inFlight .result 0 0 [verdictPins true 0]).inputs = verdictPins true 0 :: [] ∧
    (verdictPins true 0).rst = false ∧ (verdictPins true 0).resValid = true ∧ (verdictPins true 0).resOk = true ∧
    (verdictPins false 0).resOk = false ∧ (inFlight .result 0 0 [verdictPins true 0]).fsm ≠ .idle ∧
    (match step (inFlight .result 0 0 [verdictPins true 0]) with
      | .next t => t.rsp
      | _ => none) = some 0x00000000#32 ∧ rspStatus 0x00000000#32 = 0x00#8 := by
  decide
theorem witness_EarlyVerdictEndsTheFrame :
    (inFlight .data 767 0 [verdictPins false 5]).emulated = false ∧ (inFlight .data 767 0 [verdictPins false 5]).fsm = .data ∧
    (inFlight .data 767 0 [verdictPins false 5]).inputs = verdictPins false 5 :: [] ∧ (verdictPins false 5).rst = false ∧
    (verdictPins false 5).resValid = true ∧ (verdictPins false 5).resOk = false ∧ (verdictPins true 5).resOk = true := by decide
/-- The second clause also at a cycle with `cmd_valid` and `res_valid` high together, where a DISPLAY starts its frame. -/
theorem witness_VerdictWhenIdleIsIgnored :
    let both : Pins := { Pins.present 0x040000000000#48 with resValid := true, resOk := true }
    (start [verdictPins true 0]).fsm = .idle ∧ (start [verdictPins true 0]).inputs = verdictPins true 0 :: [] ∧
    (verdictPins true 0).rst = false ∧ (verdictPins true 0).cmdValid = false ∧
    (start [both]).fsm = .idle ∧ (start [both]).inputs = both :: [] ∧ both.rst = false ∧ both.cmdValid = true ∧
    both.resValid = true ∧ seen (start [both]) = some (.sof, 0, none, none) := by decide
theorem witness_TransitionTable :
    (start []).fsm = .idle ∧ (0#48 : CmdWord) ≠ encode .display ∧ (inFlight .data 767 0 []).txIdx.val = 767 ∧
    (inFlight .data 766 0 []).txIdx.val < 767 ∧ (inFlight .sof 0 0 []).emulated = false ∧
    (inFlight .result 0 0 []).fsm = .result := by decide
theorem witness_OnlyEnabledEventsHappen :
    eventOf ready (inFlight .sof 0 0 []) = some .beat ∧ eventOf (Pins.present 0) (start []) = some (.cmd 0) := by decide
theorem witness_EveryAcceptedCommandIsAnsweredOnce :
    ∀ p ∈ (start [Pins.present 0x040000000000#48, verdictPins true 0]).inputs.take 2, p.rst = false := by decide
theorem witness_FrameWaitsForTheSink :
    (inFlight .data 767 0 [Pins.quiet]).emulated = false ∧ (inFlight .data 767 0 [Pins.quiet]).fsm ≠ .idle ∧
    (∀ p ∈ (inFlight .data 767 0 [Pins.quiet]).inputs.take 2,
      p.rst = false ∧ p.resValid = false ∧ p.txReady = false) := by decide
/-- A failure and an early success after the marker, and a frame without an answer; the success after all 769 bytes is
witnessed with Obligations.SuccessfulDisplaySendsTheFrame. -/
theorem witness_DisplayTransaction :
    let failing := inFlight .sof 0 3 [ready, verdictPins false 9]
    let early := inFlight .sof 0 3 [ready, verdictPins true 9]
    failing.fsm = .sof ∧ failing.txIdx = 0 ∧ failing.emulated = false ∧ (∀ p ∈ failing.inputs.take 2, p.rst = false) ∧
    (failing.transact 2).response = some 0x03000009#32 ∧ (failing.transact 2).steps = 1 + 1 ∧
    early.fsm = .sof ∧ early.txIdx = 0 ∧ (∀ p ∈ early.inputs.take 2, p.rst = false) ∧
    (early.transact 2).response = some 0x03000003#32 ∧ (early.transact 2).beats.length = 1 ∧
    (early.transact 1).response = none ∧ ({ early with emulated := true } : State).emulated = true := by decide
theorem witness_SuccessfulDisplaySendsTheFrame :
    ∃ (s : State) (first last : Pins) (takes rest : List Pins),
      s.emulated = false ∧ s.fsm = .idle ∧ s.txIdx = 0 ∧ s.inputs = first :: takes ++ last :: rest ∧
      first.rst = false ∧ first.cmdValid = true ∧ first.cmdData = encode .display ∧ takes.length = 769 ∧
      (∀ p ∈ takes, p.rst = false ∧ p.resValid = false ∧ p.txReady = true) ∧
      last.rst = false ∧ last.resValid = true ∧ last.resOk = true :=
  ⟨start (Pins.present (encode .display) :: List.replicate 769 ready ++ verdictPins true 0 :: []),
    Pins.present (encode .display), verdictPins true 0, List.replicate 769 ready, [], rfl, rfl, rfl, rfl, rfl, rfl, rfl,
    List.length_replicate, fun p hp => by rw [List.eq_of_mem_replicate hp]; exact ⟨rfl, rfl, rfl⟩, rfl, rfl, rfl⟩
theorem witness_EmulatedDisplayAlwaysSucceeds :
    ({ start [Pins.present 0x040000000000#48, verdictPins false 1] with emulated := true }).emulated = true ∧
    ({ start [Pins.present 0x040000000000#48, verdictPins false 1] with emulated := true }).accepts = some 0x040000000000#48 ∧
    decode 0x040000000000#48 = .ok .display ∧
    ∀ p ∈ ({ start [Pins.present 0x040000000000#48, verdictPins false 1] with emulated := true }).inputs.take 771,
      p.rst = false := by decide

end Sys2Proof.Tests
end

