-- ==== Sys2Proof/Proofs/Acceptance.lean ====
section
/-! PROOFS. Which steps of R9 the pins amount to, and the step that accepts a command word (00_scope.md R8, R9; 10_state.md
R31; 42_display.md R111, R121). -/

namespace Sys2Proof.Machine

/-! ### The steps that are enabled (R121) -/

@[simp] theorem enabled_reset (strap : Bool) (s : State) : enabled (.reset strap) s = true := rfl

@[simp] theorem enabled_cmd_iff (w : CmdWord) (s : State) : enabled (.cmd w) s = true ↔ s.fsm = .idle := by
  simp [enabled]

@[simp] theorem enabled_beat_iff (s : State) : enabled .beat s = true ↔ s.fsm = .sof ∨ s.fsm = .data := by
  simp [enabled]

theorem enabled_sinkOk_of_result {s : State} (hf : s.fsm = .result) : enabled .sinkOk s = true := by
  simp [enabled, hf]

/-- R34, R121: the real sink may give either verdict in every state. -/
theorem enabled_verdict_of_real (p : Pins) {s : State} (he : s.emulated = false) : enabled (verdict p) s = true := by
  unfold verdict
  split
  · simp [enabled, he]
  · simp [enabled, he]

/-- R121: a step marked with a dash is never what the pins amount to. -/
theorem enabled_of_eventOf {p : Pins} {s : State} {e : Event} (h : eventOf p s = some e) : enabled e s = true := by
  obtain ⟨rfl, -⟩ | ⟨-, rfl, -, hidle⟩ | ⟨-, -, ⟨rfl, hoffer⟩ | ⟨rfl, hresult⟩⟩ | ⟨-, hreal, -, rfl⟩ |
    ⟨-, -, -, -, rfl, hoffer⟩ := eventOf_cases h
  · exact enabled_reset p.emulated s
  · exact (enabled_cmd_iff p.cmdData s).2 hidle
  · exact (enabled_beat_iff s).2 hoffer
  · exact enabled_sinkOk_of_result hresult
  · exact enabled_verdict_of_real p hreal
  · exact (enabled_beat_iff s).2 hoffer

/-- Settles O49: the event is enabled by the cases of `eventOf_cases`, and R121's table gives the state for a command and for
a beat. -/
theorem onlyEnabledEventsHappen : Obligations.OnlyEnabledEventsHappen := by
  intro p s e h
  have hen : enabled e s = true := enabled_of_eventOf h
  refine ⟨hen, ?_, ?_⟩
  · rintro w rfl
    exact (enabled_cmd_iff w s).1 hen
  · rintro rfl
    exact (enabled_beat_iff s).1 hen

/-! ### The step that accepts a word (R9, R31) -/

/-- A cycle in which something happens has the effect of that event. -/
theorem step_of_event {s : State} {e : Event} (h : eventOf s.nextPins s = some e) :
    step s = takeEvent e s.beginCycle := by
  simp only [step, runCycle, eventOf_beginCycle, h]

/-- R31: a word presented to an idle block is accepted, whatever the sink's pins show (log entry 15). -/
theorem eventOf_of_presented {p : Pins} {s : State} (hrst : p.rst = false) (hvalid : p.cmdValid = true)
    (hidle : s.fsm = .idle) : eventOf p s = some (.cmd p.cmdData) := by
  simp [eventOf, cmdReady, hrst, hvalid, hidle]

theorem takeEvent_cmd_of_idle (w : CmdWord) {s : State} (hidle : s.fsm = .idle) :
    takeEvent (.cmd w) s = runWord w s :=
  if_pos ((enabled_cmd_iff w s).2 hidle)

/-- The accepting step, for every word: it runs the word on the state with its pins sampled. -/
theorem step_of_presented {s : State} (hidle : s.fsm = .idle) (hrst : s.nextPins.rst = false)
    (hvalid : s.nextPins.cmdValid = true) : step s = runWord s.nextPins.cmdData s.beginCycle := by
  have hacc : eventOf s.nextPins s = some (.cmd s.nextPins.cmdData) := eventOf_of_presented hrst hvalid hidle
  rw [step_of_event hacc, takeEvent_cmd_of_idle _ ((beginCycle_fsm s).trans hidle)]

/-- Settles O7: the accepting step runs the word, and a word that decodes runs its instruction. -/
theorem stepRunsTheDecodedCommand : Obligations.StepRunsTheDecodedCommand := by
  intro s p rest i hidle hin hrst hvalid hdec
  have hpins : s.nextPins = p := by simp [State.nextPins, hin]
  have hbegin : s.beginCycle = { s with inputs := rest, rsp := none, beat := none } := by
    simp [State.beginCycle, hin]
  subst hpins
  rw [step_of_presented hidle hrst hvalid, runWord_ok _ _ hdec, hbegin]

end Sys2Proof.Machine
end

