-- ==== Sys2Proof/Proofs/StateAndPorts.lean ====
section
/-! PROOFS. The state and its ports (10_state.md R20 to R36): which pins a step reads and what crosses the ports, what Reset
leaves, the invariant and who writes what, and two rules of whole runs: every accepted command is answered once, and a
successful DISPLAY sends its frame. -/

namespace Sys2Proof.Machine

/-! ### The pins a step reads -/

/-- A step whose next sample is known. -/
theorem step_of_inputs {s : State} {p : Pins} {rest : List Pins} (h : s.inputs = p :: rest) :
    step s = runCycle p { s with inputs := rest, rsp := none, beat := none } := by
  simp only [step, State.nextPins, State.beginCycle, h, List.headD_cons, List.tail_cons]

theorem nextPins_of_inputs {s : State} {p : Pins} {rest : List Pins} (h : s.inputs = p :: rest) : s.nextPins = p := by
  simp only [State.nextPins, h, List.headD_cons]

/-- The pins act on the state through the one step of R9 that they amount to. -/
theorem runCycle_congr {p q : Pins} {s : State} (h : eventOf p s = eventOf q s) : runCycle p s = runCycle q s := by
  simp only [runCycle, h]

/-- The samples that amount to the same step of R9 lead to the same state. -/
theorem step_congr {s : State} {p q : Pins} (rest : List Pins) (h : eventOf p s = eventOf q s) :
    step { s with inputs := p :: rest } = step { s with inputs := q :: rest } := by
  rw [step_of_inputs rfl, step_of_inputs rfl]
  exact runCycle_congr h

/-- A command word touches neither the samples to come nor the transmit port. -/
theorem runWord_ports {w : CmdWord} {s t : State} (h : runWord w s = .next t) :
    t.inputs = s.inputs ∧ t.beat = s.beat := by
  cases runWord_cases h <;> (rename_i ht; subst ht; exact ⟨rfl, rfl⟩)

/-- Every step takes one sample off. -/
theorem step_inputs {s t : State} (h : step s = .next t) : t.inputs = s.inputs.tail := by
  cases step_cases h with
  | command _ _ _ ht => exact (runWord_ports ht).1
  | reset _ ht | quiet _ _ _ ht | success _ _ _ ht | earlySuccess _ _ _ _ _ ht | failure _ _ _ _ _ ht => subst ht; rfl
  | marker _ _ _ ht | payload _ _ _ _ _ _ ht | lastByte _ _ _ _ ht => subst ht; simp

/-- What the next `n + 1` samples all have, the next one and the `n` after it have; past the end of the list the pins are
quiet (log entry 1). -/
theorem pins_of_take_succ {P : Pins → Prop} (hquiet : P Pins.quiet) {s : State} {n : Nat}
    (h : ∀ p ∈ s.inputs.take (n + 1), P p) : P s.nextPins ∧ ∀ p ∈ s.inputs.tail.take n, P p := by
  cases hin : s.inputs with
  | nil => simpa [State.nextPins, hin] using hquiet
  | cons q rest => simpa [State.nextPins, hin] using h

/-! ### The command port (R31) -/

theorem cmdReady_iff (p : Pins) (s : State) : cmdReady p s = true ↔ s.fsm = .idle ∧ p.rst = false := by
  simp [cmdReady]

theorem verdict_ne_cmd (p : Pins) (w : CmdWord) : verdict p ≠ .cmd w := by
  unfold verdict
  split
  · exact nofun
  · exact nofun

theorem eventOf_eq_cmd_iff {p : Pins} {s : State} {w : CmdWord} :
    eventOf p s = some (.cmd w) ↔ p.cmdValid = true ∧ cmdReady p s = true ∧ w = p.cmdData := by
  constructor
  · intro h
    obtain ⟨he, -⟩ | ⟨hrst, he, hvalid, hidle⟩ | ⟨-, -, ⟨he, -⟩ | ⟨he, -⟩⟩ | ⟨-, -, -, he⟩ | ⟨-, -, -, -, he, -⟩ :=
      eventOf_cases h
    · cases he
    · cases he
      exact ⟨hvalid, (cmdReady_iff p s).2 ⟨hidle, hrst⟩, rfl⟩
    · cases he
    · cases he
    · exact absurd he.symm (verdict_ne_cmd p w)
    · cases he
  · rintro ⟨hvalid, hready, rfl⟩
    obtain ⟨hidle, hrst⟩ := (cmdReady_iff p s).1 hready
    exact eventOf_of_presented hrst hvalid hidle

theorem accepts_eq_some_iff {s : State} {w : CmdWord} :
    s.accepts = some w ↔ s.nextPins.cmdValid = true ∧ cmdReady s.nextPins s = true ∧ w = s.nextPins.cmdData := by
  rw [← eventOf_eq_cmd_iff]
  unfold State.accepts
  split
  · rename_i v h
    rw [h, Option.some_inj, Option.some_inj, Event.cmd.injEq]
  · rename_i h
    exact ⟨nofun, fun hw => absurd hw (h w)⟩

theorem accepts_of_presented {s : State} (hrst : s.nextPins.rst = false) (hidle : s.fsm = .idle)
    (hvalid : s.nextPins.cmdValid = true) : s.accepts = some s.nextPins.cmdData :=
  accepts_eq_some_iff.2 ⟨hvalid, (cmdReady_iff _ _).2 ⟨hidle, hrst⟩, rfl⟩

/-- R31: nothing is accepted while a frame is in flight, and nothing that is not presented. -/
theorem accepts_eq_none {s : State} (h : s.fsm = .idle → s.nextPins.cmdValid = false) : s.accepts = none := by
  by_contra hne
  obtain ⟨w, hw⟩ := Option.ne_none_iff_exists'.1 hne
  obtain ⟨hvalid, hready, -⟩ := accepts_eq_some_iff.1 hw
  simp [h ((cmdReady_iff _ _).1 hready).1] at hvalid

/-- R31: while the block is not ready, what stands on the command port is not looked at. -/
theorem eventOf_of_not_ready {p : Pins} {s : State} (valid : Bool) (w : CmdWord) (h : cmdReady p s = false) :
    eventOf p s = eventOf { p with cmdValid := valid, cmdData := w } s := by
  have h' : cmdReady { p with cmdValid := valid, cmdData := w } s = false := h
  simp only [eventOf, h, h', Bool.and_false]
  rfl

/-- Settles O9: the ready pin, the acceptance it allows, and the samples that amount to the same step while it is low. -/
theorem commandPortHandshake : Obligations.CommandPortHandshake :=
  ⟨cmdReady_iff, fun _ _ => accepts_eq_some_iff,
    fun _ _ rest valid w hready => step_congr rest (eventOf_of_not_ready valid w hready)⟩

/-! ### The transmit port (R33, R110, R126) -/

theorem txValid_iff (p : Pins) (s : State) :
    txValid p s = true ↔ p.rst = false ∧ s.emulated = false ∧ (s.fsm = .sof ∨ s.fsm = .data) := by
  simp [txValid, and_assoc]

/-- R110: the last mark, by the number of the byte. -/
theorem markLast_eq (s : State) : s.markLast = (s.fsm == .data && s.txIdx.val == 767) := by
  rw [Bool.eq_iff_iff]
  simp [State.markLast, Fin.ext_iff]

/-- The beat that crosses the transmit port in a cycle with these pins: the byte on offer with its marks, when the port is
valid, the sink is ready and no verdict comes. -/
def State.portBeat (p : Pins) (s : State) : Option Beat :=
  if txValid p s && p.txReady && !p.resValid then
    s.offered.map fun b => { byte := b, first := s.markFirst, last := s.markLast }
  else none

theorem portBeat_eq_some_iff {p : Pins} {s : State} {b : Beat} :
    s.portBeat p = some b ↔
      txValid p s = true ∧ p.txReady = true ∧ p.resValid = false ∧
        s.offered = some b.byte ∧ b.first = s.markFirst ∧ b.last = s.markLast := by
  obtain ⟨byte, first, last⟩ := b
  unfold State.portBeat
  split
  · rename_i hport
    simp only [Bool.and_eq_true, Bool.not_eq_true'] at hport
    obtain ⟨⟨hvalid, hready⟩, hverdict⟩ := hport
    simp only [hvalid, hready, hverdict, true_and, Option.map_eq_some_iff, Beat.mk.injEq]
    constructor
    · rintro ⟨_, hb, rfl, rfl, rfl⟩
      exact ⟨hb, rfl, rfl⟩
    · rintro ⟨hb, rfl, rfl⟩
      exact ⟨byte, hb, rfl, rfl, rfl⟩
  · rename_i hport
    simp only [Bool.and_eq_true, Bool.not_eq_true'] at hport
    exact ⟨nofun, fun ⟨hvalid, hready, hverdict, _⟩ => absurd ⟨⟨hvalid, hready⟩, hverdict⟩ hport⟩

/-- No beat crosses without a valid port, a ready sink and no verdict. -/
theorem portBeat_eq_none {p : Pins} {s : State}
    (h : txValid p s = true → p.txReady = true → p.resValid = true) : s.portBeat p = none := by
  by_contra hne
  obtain ⟨b, hb⟩ := Option.ne_none_iff_exists'.1 hne
  obtain ⟨hvalid, hready, hverdict, -⟩ := portBeat_eq_some_iff.1 hb
  simp [h hvalid hready] at hverdict

/-- No byte is on offer in IDLE and RESULT. -/
theorem portBeat_of_idle_or_result {p : Pins} {s : State} (h : s.fsm = .idle ∨ s.fsm = .result) : s.portBeat p = none := by
  refine portBeat_eq_none fun hvalid => ?_
  obtain ⟨-, -, hoffer⟩ := (txValid_iff p s).1 hvalid
  rcases h with h | h <;> simp [h] at hoffer

/-- R33, R120: a byte taken by the real sink crosses the port; one taken by the emulated sink does not. -/
theorem sendBeat_beat {s : State} {b : Byte} (hrst : s.nextPins.rst = false) (hsink : s.takesByte)
    (hf : s.fsm = .sof ∨ s.fsm = .data) (hb : s.offered = some b) :
    (s.beginCycle.sendBeat b).beat = s.portBeat s.nextPins := by
  rcases hemu : s.emulated with _ | _
  · obtain ⟨hverdict, hready⟩ : s.nextPins.resValid = false ∧ s.nextPins.txReady = true := by
      simpa [State.takesByte, hemu] using hsink
    rw [sendBeat_of_real s.beginCycle b hemu]
    exact (portBeat_eq_some_iff.2
      ⟨(txValid_iff _ _).2 ⟨hrst, hemu, hf⟩, hready, hverdict, hb, rfl, rfl⟩).symm
  · rw [sendBeat_of_emulated s.beginCycle b hemu]
    exact (portBeat_eq_none fun hvalid => by simp [txValid, hemu] at hvalid).symm

/-- The beat of a step is what crosses the port in its cycle. -/
theorem step_beat {s t : State} (h : step s = .next t) : t.beat = s.portBeat s.nextPins := by
  cases step_cases h with
  | reset hrst ht =>
    subst ht
    exact (portBeat_eq_none fun hvalid => by simp [txValid, hrst] at hvalid).symm
  | command _ hidle _ ht => rw [(runWord_ports ht).2, portBeat_of_idle_or_result (.inl hidle), beginCycle_beat]
  | quiet _ _ hbusy ht =>
    subst ht
    refine (portBeat_eq_none fun hvalid hready => ?_).symm
    obtain ⟨-, -, hoffer⟩ := (txValid_iff _ _).1 hvalid
    have hstate : s.fsm ≠ .idle ∧ s.fsm ≠ .result := by
      rcases hoffer with hf | hf <;> simp [hf]
    obtain ⟨-, -, hwait⟩ := hbusy hstate.1
    simp [hwait hstate.2] at hready
  | marker hrst hf hsink ht =>
    subst ht
    exact sendBeat_beat hrst hsink (.inl hf) (by simp only [State.offered, hf])
  | payload hrst hf hsink _ _ _ ht | lastByte hrst hf hsink _ ht =>
    subst ht
    exact sendBeat_beat hrst hsink (.inr hf) (by simp only [State.offered, hf])
  | success _ hf _ ht => subst ht; exact (portBeat_of_idle_or_result (.inr hf)).symm
  | earlySuccess _ _ hverdict _ _ ht | failure _ _ hverdict _ _ ht =>
    subst ht
    exact (portBeat_eq_none fun _ _ => hverdict).symm

/-- Settles O10: a beat is what `State.portBeat` says, for every step. -/
theorem transmitPortHandshake : Obligations.TransmitPortHandshake := by
  refine ⟨fun p s hrst => ?_, fun p s hrst => ?_, fun s t b h => ?_⟩
  · simp [txValid_iff, hrst]
  · simp [txValid, hrst]
  · rw [step_beat h, ← markLast_eq]
    exact portBeat_eq_some_iff

/-! ### The sink's pins with the emulated sink, and a verdict with no frame in flight (R34, R117, R120) -/

/-- R34, R120: with the emulated sink no step looks at the sink's pins. -/
theorem eventOf_of_emulated {p : Pins} {s : State} (hemu : s.emulated = true) :
    eventOf p s =
      if p.rst then some (.reset p.emulated)
      else if p.cmdValid && cmdReady p s then some (.cmd p.cmdData)
      else emulatedSink s := by
  simp only [eventOf, sinkEvent, hemu, if_true]

/-- Settles O12: the two samples amount to the same step. -/
theorem emulatedModeIgnoresTheSinkPorts : Obligations.EmulatedModeIgnoresTheSinkPorts := by
  intro s p q rest hemu hrst hstrap hvalid hdata
  have hready : cmdReady q s = cmdReady p s := by simp only [cmdReady, hrst]
  refine step_congr rest ?_
  rw [eventOf_of_emulated hemu, eventOf_of_emulated hemu, hrst, hstrap, hvalid, hdata, hready]

/-- R117: neither verdict does anything while no frame is in flight. -/
theorem takeEvent_verdict_of_idle (p : Pins) {s : State} (hidle : s.fsm = .idle) : takeEvent (verdict p) s = .next s := by
  unfold verdict
  split
  · simp [takeEvent, enabled, takeSinkOk, hidle]
  · simp [takeEvent, enabled, takeSinkFail, hidle]

/-- A cycle without Reset in which no word is accepted is the sink's. -/
theorem eventOf_of_no_command {p : Pins} {s : State} (hrst : p.rst = false)
    (h : s.fsm = .idle → p.cmdValid = false) : eventOf p s = sinkEvent p s := by
  have hcmd : (p.cmdValid && cmdReady p s) = false := by
    rw [Bool.eq_false_iff, Ne, Bool.and_eq_true, cmdReady_iff]
    rintro ⟨hvalid, hidle, -⟩
    simp [h hidle] at hvalid
  simp only [eventOf, hrst, hcmd, Bool.false_eq_true, if_false]

/-- R34: the real sink's verdict. -/
theorem sinkEvent_of_verdict {p : Pins} {s : State} (hreal : s.emulated = false) (hverdict : p.resValid = true) :
    sinkEvent p s = some (verdict p) := by
  simp [sinkEvent, hreal, hverdict]

/-- In IDLE the sink has nothing to do but to give a verdict. -/
theorem sinkEvent_of_idle {p : Pins} {s : State} (hidle : s.fsm = .idle) :
    sinkEvent p s = none ∨ sinkEvent p s = some (verdict p) := by
  unfold sinkEvent
  split
  · exact .inl (by simp only [emulatedSink, hidle])
  · split
    · exact .inr rfl
    · exact .inl (by simp [txValid, hidle])

/-- R117: an idle block to which no command is presented stays as it is, whatever the sink's pins show. -/
theorem runCycle_of_idle {p : Pins} {s : State} (hidle : s.fsm = .idle) (hrst : p.rst = false)
    (hvalid : p.cmdValid = false) : runCycle p s = .next s := by
  unfold runCycle
  rw [eventOf_of_no_command hrst fun _ => hvalid]
  rcases sinkEvent_of_idle (p := p) hidle with hsink | hsink
  · rw [hsink]
  · rw [hsink]
    exact takeEvent_verdict_of_idle p hidle

/-- R34, R117: an idle block does not look at the verdict port (log entry 15). -/
theorem runCycle_ignores_verdict_of_idle {p : Pins} {s : State} (hidle : s.fsm = .idle) (hrst : p.rst = false) :
    runCycle p s = runCycle { p with resValid := false } s := by
  rcases Bool.eq_false_or_eq_true p.cmdValid with hvalid | hvalid
  · exact runCycle_congr ((eventOf_of_presented hrst hvalid hidle).trans
      (eventOf_of_presented (p := { p with resValid := false }) hrst hvalid hidle).symm)
  · exact (runCycle_of_idle hidle hrst hvalid).trans
      (runCycle_of_idle (p := { p with resValid := false }) hidle hrst hvalid).symm

/-- Settles O47: without a command an idle block stays as it is, and it never looks at the verdict port. -/
theorem verdictWhenIdleIsIgnored : Obligations.VerdictWhenIdleIsIgnored := by
  intro s p rest hidle hin hrst
  refine ⟨fun hvalid => ?_, ?_⟩
  · rw [step_of_inputs hin]
    exact runCycle_of_idle hidle hrst hvalid
  · rw [step_of_inputs hin, step_of_inputs rfl]
    exact runCycle_ignores_verdict_of_idle hidle hrst

/-! ### Reset (R36, R160) -/

theorem readCell_of_no_cells {s : State} (h : s.cells = []) (a : CellAddr) : s.readCell a = 0 := by
  simp only [State.readCell, h]
  rfl

/-- R30, R160: a cycle with `rst` high is a Reset, whatever else the pins show. -/
theorem step_of_rst {s : State} (hrst : s.nextPins.rst = true) :
    step s = .next (s.beginCycle.applyReset s.nextPins.emulated) := by
  have hevent : eventOf s.nextPins s = some (.reset s.nextPins.emulated) := by simp only [eventOf, hrst, if_true]
  rw [step_of_event hevent]
  rfl

/-- Settles O25: a step with `rst` high applies Reset, whose fields are the reset values. -/
theorem resetValues : Obligations.ResetValues := by
  refine ⟨fun s p rest hin hrst => ⟨by simp [cmdReady, hrst], ?_⟩,
    readCell_of_no_cells rfl, rfl, rfl, rfl, rfl, rfl⟩
  obtain rfl : s.nextPins = p := nextPins_of_inputs hin
  exact ⟨_, step_of_rst hrst, readCell_of_no_cells rfl, rfl, rfl, rfl, rfl, rfl, rfl,
    fun q => by simp [txValid], fun q hq => (cmdReady_iff q _).2 ⟨rfl, hq⟩⟩

/-! ### The canonical store (R21, log entry 6) -/

theorem Memory.wfFrom_cons_iff {lo a : Nat} {v : Pixel} {rest : Memory} :
    Memory.wfFrom lo ((a, v) :: rest) = true ↔
      lo ≤ a ∧ a < Config.nCells ∧ v ≠ Memory.blank ∧ rest.wfFrom (a + 1) = true := by
  simp [Memory.wfFrom, and_assoc]

theorem Memory.read_head (a : Nat) (v : Pixel) (rest : Memory) : Memory.read ((a, v) :: rest) a = v := if_pos rfl

/-- A listed cell is not black, so two canonical stores that read alike list the same first address. -/
theorem Memory.head_le_of_read_eq {lo a b : Nat} {v u : Pixel} {rest rest' : Memory}
    (hm : Memory.wfFrom lo ((a, v) :: rest) = true) (hm' : Memory.wfFrom b ((b, u) :: rest') = true)
    (hread : Memory.read ((a, v) :: rest) a = Memory.read ((b, u) :: rest') a) : b ≤ a := by
  obtain ⟨-, -, hv, -⟩ := Memory.wfFrom_cons_iff.1 hm
  by_contra hlt
  rw [Memory.read_head, Memory.read_below _ hm' (by omega)] at hread
  exact hv hread

/-- The cells behind the first listed one read alike too: at that address and below, none is listed. -/
theorem Memory.read_tail_eq {a : Nat} {v u : Pixel} {rest rest' : Memory} (hm : rest.wfFrom (a + 1) = true)
    (hm' : rest'.wfFrom (a + 1) = true)
    (hread : ∀ c, Memory.read ((a, v) :: rest) c = Memory.read ((a, u) :: rest') c) (c : Nat) :
    rest.read c = rest'.read c := by
  by_cases hc : c = a
  · rw [rest.read_below hm (by omega), rest'.read_below hm' (by omega)]
  · simpa only [Memory.read, if_neg hc] using hread c

theorem Memory.eq_of_read_eq (m m' : Memory) {lo : Nat} (hm : m.wfFrom lo = true) (hm' : m'.wfFrom lo = true)
    (hread : ∀ a, m.read a = m'.read a) : m = m' := by
  induction m generalizing m' lo with
  | nil =>
    cases m' with
    | nil => rfl
    | cons p rest' =>
      obtain ⟨b, u⟩ := p
      obtain ⟨-, -, hu, -⟩ := Memory.wfFrom_cons_iff.1 hm'
      exact absurd ((hread b).trans (Memory.read_head b u rest')).symm hu
  | cons p rest ih =>
    obtain ⟨a, v⟩ := p
    obtain ⟨-, ha, hv, hrest⟩ := Memory.wfFrom_cons_iff.1 hm
    cases m' with
    | nil => exact absurd ((Memory.read_head a v rest).symm.trans (hread a)) hv
    | cons p' rest' =>
      obtain ⟨b, u⟩ := p'
      obtain ⟨-, hb, hu, hrest'⟩ := Memory.wfFrom_cons_iff.1 hm'
      have hab : a = b := Nat.le_antisymm
        (Memory.head_le_of_read_eq hm' (Memory.wfFrom_cons_iff.2 ⟨le_rfl, ha, hv, hrest⟩) (hread b).symm)
        (Memory.head_le_of_read_eq hm (Memory.wfFrom_cons_iff.2 ⟨le_rfl, hb, hu, hrest'⟩) (hread a))
      subst hab
      have hvu : v = u := by simpa only [Memory.read_head] using hread a
      have htail : rest = rest' := ih rest' hrest hrest' (Memory.read_tail_eq hrest hrest' hread)
      rw [hvu, htail]

/-- Settles O28, by induction on one of the stores. -/
theorem storesThatReadAlikeAreEqual : Obligations.StoresThatReadAlikeAreEqual :=
  fun m m' => m.eq_of_read_eq m'

/-! ### The invariant (R35) -/

/-- Settles O26: the empty store is canonical. -/
theorem invariantHoldsAtReset : Obligations.InvariantHoldsAtReset := ⟨Memory.wf_nil, fun _ => rfl⟩

/-- The framer's registers may move to any pair that the invariant allows. -/
theorem inv_setFramer {s : State} {f : Fsm} {i : Fin 768} (hwf : s.cells.wf = true) (hi : f ≠ .data → i = 0) :
    (s.setFramer f i).Inv := ⟨hwf, hi⟩

/-- A response is no part of the invariant, nor is the rotation. -/
theorem inv_respond {s : State} (h : s.Inv) (c : Byte) (d : BitVec 24) : (s.respond c d).Inv := h

theorem inv_raise {s : State} (h : s.Inv) (e : Condition) : (s.raise e).Inv := h

theorem inv_setRotation {s : State} (h : s.Inv) (q : Rotation) : (s.setRotation q).Inv := h

theorem inv_writeCell {s : State} (h : s.Inv) (a : CellAddr) (v : Pixel) : (s.writeCell a v).Inv :=
  ⟨wf_writeCell s a v h.1, h.2⟩

theorem inv_beginCycle {s : State} (h : s.Inv) : s.beginCycle.Inv := h

/-- An accepted word keeps the invariant. -/
theorem inv_of_runWord {w : CmdWord} {s t : State} (hinv : s.Inv) (h : runWord w s = .next t) : t.Inv := by
  cases runWord_cases h with
  | illegal _ _ ht | setpixOut _ _ _ _ _ ht | getpixOut _ _ _ _ ht | setrotBad _ _ _ ht =>
    subst ht; exact inv_raise hinv _
  | setpix _ _ pix a _ _ ht => subst ht; exact inv_respond (inv_writeCell hinv a pix) _ _
  | getpix _ _ _ _ _ ht => subst ht; exact inv_respond hinv _ _
  | setrot _ q _ _ ht => subst ht; exact inv_respond (inv_setRotation hinv q) _ _
  | display _ ht => subst ht; exact inv_setFramer hinv.1 fun _ => rfl

/-- Settles O27, by the cases of `step_cases`. -/
theorem everyStepKeepsTheInvariant : Obligations.EveryStepKeepsTheInvariant := by
  intro s t hinv h
  have hwf : s.cells.wf = true := hinv.1
  cases step_cases h with
  | reset _ ht => subst ht; exact ⟨Memory.wf_nil, fun _ => rfl⟩
  | command _ _ _ ht => exact inv_of_runWord (inv_beginCycle hinv) ht
  | quiet _ _ _ ht => subst ht; exact inv_beginCycle hinv
  | marker _ _ _ ht | lastByte _ _ _ _ ht => subst ht; exact inv_setFramer (by simpa using hwf) fun _ => rfl
  | payload _ _ _ _ _ _ ht => subst ht; exact inv_setFramer (by simpa using hwf) fun hf => absurd rfl hf
  | success _ _ _ ht | earlySuccess _ _ _ _ _ ht | failure _ _ _ _ _ ht =>
    subst ht; exact inv_setFramer hwf fun _ => rfl

/-! ### The word of a decoded command (R61, R67) -/

/-- R42, R61: the bytes of the angle field. -/
theorem bytes_of_angleField (w : CmdWord) :
    (angleField w).extractLsb' 8 8 = xField w ∧ (angleField w).extractLsb' 0 8 = yField w := by
  have hangle : angleField w = xField w ++ yField w := by
    conv_lhs => rw [← wordOf_fields w]
    exact angleField_wordOf _ _ _ _
  rw [hangle]
  exact ⟨BitVec.extractLsb'_append_eq_left, BitVec.extractLsb'_append_eq_right⟩

/-- R61, R62: the smaller fields that format N's zero field covers. -/
theorem fields_of_tailField (w : CmdWord) :
    (tailField w).extractLsb' 32 8 = xField w ∧ (tailField w).extractLsb' 24 8 = yField w ∧
      (tailField w).extractLsb' 0 24 = lowField w :=
  have hsub {start len : Nat} (h : start + len ≤ 40) :
      (tailField w).extractLsb' start len = w.extractLsb' start len := BitVec.extractLsb'_extractLsb'_of_le h
  ⟨hsub (by decide), hsub (by decide), hsub (by decide)⟩

/-- R64, R67: a word that decodes is the encoding of its command, format by format. -/
theorem encode_of_decode {w : CmdWord} {i : Instr} (h : decode w = .ok i) : encode i = w := by
  unfold decode at h
  split_ifs at h with hset hget hlow hrot hlow hdisp htail
  · cases h
    rw [encode_setpix, ← hset, wordOf_fields]
  · cases h
    rw [encode_getpix, ← hget, ← hlow, wordOf_fields]
  · cases h
    obtain ⟨hx, hy⟩ := bytes_of_angleField w
    rw [encode_setrot, hx, hy, ← hrot, ← hlow, wordOf_fields]
  · cases h
    obtain ⟨hx, hy, hlow⟩ := fields_of_tailField w
    have hzero : tailField w = 0#40 := htail
    rw [hzero, BitVec.extractLsb'_zero] at hx hy hlow
    rw [encode_display, ← hdisp]
    conv_rhs => rw [← wordOf_fields w, ← hx, ← hy, ← hlow]
    rfl

/-! ### Who writes the store and the rotation (R20) -/

/-- R91: a legal angle is 90 degrees for each quarter turn. -/
theorem angle_of_decodeAngle {angle : BitVec 16} {q : Rotation} (h : decodeAngle angle = some q) :
    angle.toNat = 90 * q.toNat := by
  unfold decodeAngle at h
  split_ifs at h with h0 h1 h2 h3
  · cases h; subst h0; rfl
  · cases h; subst h1; rfl
  · cases h; subst h2; rfl
  · cases h; subst h3; rfl

/-- R82, R97: coordinates that address a cell are in range, and the cell is the one at their access address. -/
theorem cellFor_eq_some {s : State} {x y : Byte} {a : CellAddr} (h : s.cellFor x y = some a) :
    x.toNat < 16 ∧ y.toNat < 16 ∧ a = accAddr s.config s.rotation (coordOf x) (coordOf y) := by
  by_cases hxy : x.toNat < 16 ∧ y.toNat < 16
  · rw [cellFor_some s x y hxy.1 hxy.2, Option.some_inj] at h
    exact ⟨hxy.1, hxy.2, h.symm⟩
  · rw [cellFor_none s x y (by omega)] at h
    cases h

/-- R45, R80: a word that changes the store is a SETPIX in range, and writes the one cell it addresses. -/
theorem setpix_of_runWord {w : CmdWord} {s t : State} (h : runWord w s = .next t) (hne : t.cells ≠ s.cells) :
    ∃ x y pix a, w = encode (.setpix x y pix) ∧ s.cellFor x y = some a ∧ t.cells = (s.writeCell a pix).cells := by
  cases runWord_cases h with
  | setpix x y pix a hd ha ht => subst ht; exact ⟨x, y, pix, a, (encode_of_decode hd).symm, ha, rfl⟩
  | illegal _ _ ht | setpixOut _ _ _ _ _ ht | getpix _ _ _ _ _ ht | getpixOut _ _ _ _ ht | setrot _ _ _ _ ht
  | setrotBad _ _ _ ht | display _ ht => subst ht; exact absurd rfl hne

/-- R90: a word that changes the rotation is a SETROT of a legal angle, and sets its quarter turns. -/
theorem setrot_of_runWord {w : CmdWord} {s t : State} (h : runWord w s = .next t) (hne : t.rotation ≠ s.rotation) :
    ∃ angle, w = encode (.setrot angle) ∧ decodeAngle angle = some t.rotation := by
  cases runWord_cases h with
  | setrot angle q hd hq ht => subst ht; exact ⟨angle, (encode_of_decode hd).symm, hq⟩
  | illegal _ _ ht | setpix _ _ _ _ _ _ ht | setpixOut _ _ _ _ _ ht | getpix _ _ _ _ _ ht | getpixOut _ _ _ _ ht
  | setrotBad _ _ _ ht | display _ ht => subst ht; exact absurd rfl hne

/-- R20: a step without Reset writes the store or the rotation only as the word that it accepts does. -/
theorem unchanged_or_runWord {s t : State} (h : step s = .next t) (hrst : s.nextPins.rst = false) :
    (t.cells = s.cells ∧ t.rotation = s.rotation) ∨ ∃ w, s.accepts = some w ∧ runWord w s.beginCycle = .next t := by
  cases step_cases h with
  | reset hr => simp [hrst] at hr
  | command hr hidle hvalid ht => exact .inr ⟨_, accepts_of_presented hr hidle hvalid, ht⟩
  | quiet _ _ _ ht | success _ _ _ ht | earlySuccess _ _ _ _ _ ht | failure _ _ _ _ _ ht =>
    subst ht; exact .inl ⟨rfl, rfl⟩
  | marker _ _ _ ht | payload _ _ _ _ _ _ ht | lastByte _ _ _ _ ht => subst ht; simp

/-- Settles O30: the accepted word is a SETPIX or a SETROT by what it changed, and a canonical store reads back the write. -/
theorem whoWritesStoreAndRotation : Obligations.WhoWritesStoreAndRotation := by
  intro s t hinv h hrst
  constructor
  · intro hne
    obtain ⟨hcells, -⟩ | ⟨w, hacc, hrun⟩ := unchanged_or_runWord h hrst
    · exact absurd hcells hne
    · obtain ⟨x, y, pix, a, rfl, ha, hcells⟩ := setpix_of_runWord hrun hne
      obtain ⟨hx, hy, rfl⟩ := cellFor_eq_some ha
      refine ⟨x, y, pix, hacc, hx, hy, ?_, fun b hb => ?_⟩
      · rw [readCell_congr hcells]
        exact readCell_writeCell_same _ _ _ hinv.1
      · rw [readCell_congr hcells]
        exact readCell_writeCell_other _ _ _ _ hb
  · intro hne
    obtain ⟨-, hrot⟩ | ⟨w, hacc, hrun⟩ := unchanged_or_runWord h hrst
    · exact absurd hrot hne
    · obtain ⟨angle, rfl, hq⟩ := setrot_of_runWord hrun hne
      exact ⟨angle, hacc, angle_of_decodeAngle hq⟩

/-! ### Runs, step by step (R10) -/

section Runs

variable {s t : State} (h : step s = .next t) (n : Nat)
include h

theorem beats_succ : s.beats (n + 1) = t.beat.toList ++ t.beats n := by simp only [State.beats, h]

theorem responses_succ : s.responses (n + 1) = t.rsp.toList ++ t.responses n := by simp only [State.responses, h]

theorem acceptances_succ : s.acceptances (n + 1) = s.accepts.toList ++ t.acceptances n := by
  simp only [State.acceptances, h]

theorem after_succ : s.after (n + 1) = t.after n := by simp only [State.after, h]

end Runs

/-! ### Every accepted command is answered once (R32) -/

/-- The responses owed: one for a frame in flight. -/
def State.owed (s : State) : Nat := if s.busy then 1 else 0

theorem owed_of_idle {s : State} (h : s.fsm = .idle) : s.owed = 0 := by simp [State.owed, State.busy, h]

theorem owed_of_busy {s : State} (h : s.fsm ≠ .idle) : s.owed = 1 := by simp [State.owed, State.busy, h]

theorem owed_congr {s t : State} (h : t.fsm = s.fsm) : t.owed = s.owed := by
  unfold State.owed State.busy
  rw [h]

/-- An accepted word is answered in its own step, or starts a frame that owes the answer. -/
theorem answer_of_runWord {w : CmdWord} {s t : State} (hidle : s.fsm = .idle) (hrsp : s.rsp = none)
    (h : runWord w s = .next t) : t.rsp.toList.length + t.owed = 1 := by
  cases runWord_cases h with
  | illegal _ _ ht | setpix _ _ _ _ _ _ ht | setpixOut _ _ _ _ _ ht | getpix _ _ _ _ _ ht | getpixOut _ _ _ _ ht
  | setrot _ _ _ _ ht | setrotBad _ _ _ ht =>
    subst ht
    rw [owed_of_idle (by exact hidle)]
    rfl
  | display _ ht =>
    subst ht
    rw [owed_of_busy (by simp), setFramer_rsp, hrsp]
    rfl

/-- A frame in flight keeps the port closed, and its end gives the answer that it owed. -/
theorem balance_of_frame_end {s t : State} {r : RspWord} (hbusy : s.fsm ≠ .idle) (hidle : t.fsm = .idle)
    (hrsp : t.rsp = some r) : t.rsp.toList.length + t.owed = s.accepts.toList.length + s.owed := by
  rw [accepts_eq_none (absurd · hbusy), owed_of_busy hbusy, owed_of_idle hidle, hrsp]
  rfl

/-- The balance of one step without Reset. -/
theorem step_balance {s t : State} (h : step s = .next t) (hrst : s.nextPins.rst = false) :
    t.rsp.toList.length + t.owed = s.accepts.toList.length + s.owed := by
  cases step_cases h with
  | reset hr => simp [hrst] at hr
  | command hr hidle hvalid ht =>
    rw [answer_of_runWord (s := s.beginCycle) hidle rfl ht, accepts_of_presented hr hidle hvalid, owed_of_idle hidle]
    rfl
  | quiet _ hquiet _ ht =>
    subst ht
    rw [accepts_eq_none hquiet, beginCycle_rsp, owed_congr (beginCycle_fsm s)]
    rfl
  | marker _ hf _ ht | payload _ hf _ _ _ _ ht | lastByte _ hf _ _ ht =>
    have hbusy : s.fsm ≠ .idle := by simp [hf]
    subst ht
    rw [accepts_eq_none (absurd · hbusy), owed_of_busy hbusy, owed_of_busy (by simp)]
    simp
  | success _ hf _ ht => subst ht; exact balance_of_frame_end (by simp [hf]) rfl rfl
  | earlySuccess _ _ _ _ hf ht =>
    have hbusy : s.fsm ≠ .idle := by rcases hf with hf | hf <;> simp [hf]
    subst ht
    exact balance_of_frame_end hbusy rfl rfl
  | failure _ _ _ _ hbusy ht => subst ht; exact balance_of_frame_end hbusy rfl rfl

/-- The balance of a run, by induction on its steps. -/
theorem run_balance (n : Nat) (s : State) (hrst : ∀ p ∈ s.inputs.take n, p.rst = false) :
    (s.responses n).length + (s.after n).owed = (s.acceptances n).length + s.owed := by
  induction n generalizing s with
  | zero => rfl
  | succ n ih =>
    cases h : step s with
    | next t =>
      obtain ⟨hnow, hlater⟩ := pins_of_take_succ (P := fun p => p.rst = false) rfl hrst
      rw [← step_inputs h] at hlater
      have hstep := step_balance h hnow
      have hrest := ih t hlater
      rw [responses_succ h, acceptances_succ h, after_succ h, List.length_append, List.length_append]
      omega
    | fault _ | refused _ => simp only [State.responses, State.acceptances, State.after, h]; rfl

/-- Settles O50: the balance of a run, where `State.owed` counts the frame in flight. -/
theorem everyAcceptedCommandIsAnsweredOnce : Obligations.EveryAcceptedCommandIsAnsweredOnce := run_balance

/-! ### A frame counted in bytes taken (R110, R112, R113) -/

/-- R112, R113, as equations: what the framer does when its byte is taken. -/
theorem takeBeat_of_sof {s : State} (hf : s.fsm = .sof) :
    takeBeat s = .next ((s.sendBeat s.config.sof).setFramer .data 0) := by
  simp only [takeBeat, hf]

theorem takeBeat_of_data {s : State} (hf : s.fsm = .data) (hlt : s.txIdx.val < 767) :
    takeBeat s = .next ((s.sendBeat (s.payloadByte s.txIdx.val)).setFramer .data ⟨s.txIdx.val + 1, by omega⟩) := by
  simp only [takeBeat, hf, dif_pos hlt]

theorem takeBeat_of_last {s : State} (hf : s.fsm = .data) (hlast : ¬ s.txIdx.val < 767) :
    takeBeat s = .next ((s.sendBeat (s.payloadByte s.txIdx.val)).setFramer .result 0) := by
  simp only [takeBeat, hf, dif_neg hlast]

/-- The framer's registers once `k` bytes of a frame are taken: the marker is on offer, then payload byte `k - 1`, and after
all 769 the verdict is awaited. -/
def framerAt : Nat → Fsm × Fin 768
  | 0 => (.sof, 0)
  | i + 1 => if h : i < 768 then (.data, ⟨i, h⟩) else (.result, 0)

/-- `s` with `k` bytes of a frame taken. -/
def State.inFrame (s : State) (k : Nat) : State := s.setFramer (framerAt k).1 (framerAt k).2

theorem inFrame_nextPins (s : State) (k : Nat) : (s.inFrame k).nextPins = s.nextPins := rfl

theorem inFrame_succ (s : State) {i : Nat} (hi : i < 768) : s.inFrame (i + 1) = s.setFramer .data ⟨i, hi⟩ := by
  simp only [State.inFrame, framerAt, dif_pos hi]

theorem inFrame_frameLen (s : State) : s.inFrame 769 = s.setFramer .result 0 := rfl

theorem inFrame_offers {s : State} {k : Nat} (hk : k < 769) : (s.inFrame k).fsm = .sof ∨ (s.inFrame k).fsm = .data := by
  cases k with
  | zero => exact .inl rfl
  | succ i => rw [inFrame_succ s (by omega)]; exact .inr rfl

theorem markFirst_inFrame (s : State) {k : Nat} (hk : k < 769) : (s.inFrame k).markFirst = (k == 0) := by
  cases k with
  | zero => rfl
  | succ i => rw [inFrame_succ s (by omega)]; rfl

theorem markLast_inFrame (s : State) {k : Nat} (hk : k < 769) : (s.inFrame k).markLast = (k == 768) := by
  cases k with
  | zero => rfl
  | succ i =>
    rw [inFrame_succ s (by omega), markLast_eq, Bool.eq_iff_iff]
    simp

/-- R71, R110: the beat of the byte on offer once `k` bytes are taken is the frame's beat `k`. -/
theorem sendBeat_inFrame {s : State} (hreal : s.emulated = false) {k : Nat} (hk : k < 769) :
    (s.inFrame k).sendBeat (s.frameByte k) = (s.emitBeat (s.frameBeat k)).inFrame k := by
  rw [sendBeat_of_real (s.inFrame k) _ hreal, markFirst_inFrame s hk, markLast_inFrame s hk]
  rfl

/-- R112, R113: a real sink that takes the byte on offer moves the frame on by that one beat. -/
theorem takeBeat_inFrame {s : State} (hreal : s.emulated = false) {k : Nat} (hk : k < 769) :
    takeBeat (s.inFrame k) = .next ((s.emitBeat (s.frameBeat k)).inFrame (k + 1)) := by
  have hsend := sendBeat_inFrame hreal hk
  cases k with
  | zero =>
    have htake : takeBeat (s.inFrame 0) = .next (((s.inFrame 0).sendBeat (s.frameByte 0)).setFramer .data 0) :=
      takeBeat_of_sof rfl
    rw [htake, hsend]
    rfl
  | succ i =>
    have hin : s.inFrame (i + 1) = s.setFramer .data ⟨i, by omega⟩ := inFrame_succ s (by omega)
    have hfsm : (s.inFrame (i + 1)).fsm = .data := by rw [hin]; rfl
    have hidx : (s.inFrame (i + 1)).txIdx.val = i := by rw [hin]; rfl
    have hbyte : (s.inFrame (i + 1)).payloadByte (s.inFrame (i + 1)).txIdx.val = s.frameByte (i + 1) := by
      rw [hidx]; rfl
    by_cases hlt : i < 767
    · rw [takeBeat_of_data hfsm (by omega), hbyte, hsend, inFrame_succ _ (by omega : i + 1 < 768)]
      simp only [hidx]
      rfl
    · obtain rfl : i = 767 := by omega
      rw [takeBeat_of_last hfsm (by omega), hbyte, hsend]
      rfl

/-! ### A successful DISPLAY (R118, R122) -/

/-- A sample in which a real sink takes the byte on offer. -/
def Pins.takes (p : Pins) : Prop := p.rst = false ∧ p.resValid = false ∧ p.txReady = true

theorem eventOf_of_takes {p : Pins} {s : State} (hp : p.takes) (hreal : s.emulated = false)
    (hoffer : s.fsm = .sof ∨ s.fsm = .data) : eventOf p s = some .beat := by
  obtain ⟨hrst, hverdict, hready⟩ := hp
  have hbusy : s.fsm ≠ .idle := by rcases hoffer with hf | hf <;> simp [hf]
  have hvalid : txValid p s = true := (txValid_iff p s).2 ⟨hrst, hreal, hoffer⟩
  rw [eventOf_of_no_command hrst (absurd · hbusy)]
  simp [sinkEvent, hreal, hverdict, hvalid, hready]

/-- R112, R113: a cycle in which the sink takes byte `k` of the frame. -/
theorem step_inFrame {s : State} {k : Nat} (hreal : s.emulated = false) (hk : k < 769) (hp : s.nextPins.takes) :
    step (s.inFrame k) = .next ((s.beginCycle.emitBeat (s.frameBeat k)).inFrame (k + 1)) := by
  have hoffer := inFrame_offers (s := s) hk
  have hevent : eventOf (s.inFrame k).nextPins (s.inFrame k) = some .beat := eventOf_of_takes hp hreal hoffer
  rw [step_of_event hevent]
  exact (if_pos ((enabled_beat_iff _).2 hoffer)).trans (takeBeat_inFrame (s := s.beginCycle) hreal hk)

/-- R114: a cycle in which the sink calls a complete frame a success. -/
theorem step_of_success {s : State} (hreal : s.emulated = false) (hrst : s.nextPins.rst = false)
    (hverdict : s.nextPins.resValid = true) (hok : s.nextPins.resOk = true) :
    step (s.inFrame 769) = .next ((s.beginCycle.respond statusOk 0).endFrame) := by
  have hevent : eventOf (s.inFrame 769).nextPins (s.inFrame 769) = some .sinkOk := by
    have hbusy : (s.inFrame 769).fsm ≠ .idle := by simp [inFrame_frameLen]
    rw [inFrame_nextPins, eventOf_of_no_command hrst (absurd · hbusy),
      sinkEvent_of_verdict (s := s.inFrame 769) hreal hverdict]
    exact congrArg some (if_pos hok)
  rw [step_of_event hevent]
  exact if_pos (enabled_sinkOk_of_result rfl)

/-- R109: a cycle that accepts a DISPLAY. -/
theorem step_of_display {s : State} (hidle : s.fsm = .idle) (hrst : s.nextPins.rst = false)
    (hvalid : s.nextPins.cmdValid = true) (hdata : s.nextPins.cmdData = encode .display) :
    step s = .next (s.beginCycle.inFrame 0) := by
  have hdec : decode (encode .display) = .ok .display := by decide
  rw [step_of_presented hidle hrst hvalid, hdata, runWord_ok _ _ hdec]
  rfl

/-- `n` steps from `s` give the beats `bs` and the responses `rs` and lead to `u`. -/
structure State.Run (n : Nat) (s : State) (bs : List Beat) (rs : List RspWord) (u : State) : Prop where
  beats : s.beats n = bs
  responses : s.responses n = rs
  after : s.after n = u

theorem State.Run.zero (s : State) : State.Run 0 s [] [] s := ⟨rfl, rfl, rfl⟩

/-- A run goes on as its first step's successor does. -/
theorem State.Run.cons {n : Nat} {s t u : State} {bs : List Beat} {rs : List RspWord} (h : step s = .next t)
    (hrun : State.Run n t bs rs u) : State.Run (n + 1) s (t.beat.toList ++ bs) (t.rsp.toList ++ rs) u := by
  obtain ⟨hbeats, hresponses, hafter⟩ := hrun
  exact ⟨by rw [beats_succ h, hbeats], by rw [responses_succ h, hresponses], by rw [after_succ h, hafter]⟩

/-- `s` once a frame is answered with success, with the samples `rest` to come. -/
def State.displayed (s : State) (rest : List Pins) : State :=
  { s with fsm := .idle, txIdx := 0, inputs := rest, rsp := some 0x00000000#32, beat := none }

/-- R122 case i: the bytes still to be taken cross the port in order, then comes the one answer. -/
theorem run_inFrame {takes : List Pins} {last : Pins} {rest : List Pins} (htakes : ∀ p ∈ takes, p.takes)
    (hrst : last.rst = false) (hverdict : last.resValid = true) (hok : last.resOk = true) {s : State} {k : Nat}
    (hreal : s.emulated = false) (hin : s.inputs = takes ++ last :: rest) (hk : k + takes.length = 769) :
    State.Run (takes.length + 1) (s.inFrame k) ((List.range' k takes.length).map s.frameBeat) [0x00000000#32]
      (s.displayed rest) := by
  induction takes generalizing s k with
  | nil =>
    obtain rfl : k = 769 := hk
    obtain rfl : s.nextPins = last := nextPins_of_inputs hin
    have hrest : (s.beginCycle.respond statusOk 0).endFrame = s.displayed rest := by
      have htail : s.inputs.tail = rest := by rw [hin]; rfl
      rw [← htail]
      rfl
    have hstep := step_of_success hreal hrst hverdict hok
    rw [hrest] at hstep
    exact State.Run.cons hstep (.zero _)
  | cons p takes ih =>
    obtain ⟨hp, hrest⟩ := List.forall_mem_cons.1 htakes
    obtain rfl : s.nextPins = p := nextPins_of_inputs hin
    rw [List.length_cons] at hk
    have hstep := step_inFrame hreal (by omega) hp (k := k)
    have hrun := ih hrest (s := s.beginCycle.emitBeat (s.frameBeat k)) (k := k + 1) hreal
      (by simp [hin]) (by omega)
    exact State.Run.cons hstep hrun

/-- Settles O53: the accepting step, and the run over the 769 bytes and the verdict. -/
theorem successfulDisplaySendsTheFrame : Obligations.SuccessfulDisplaySendsTheFrame := by
  intro s first last takes rest hreal hidle hidx hin hrst hvalid hdata hlen htakes hlrst hlverdict hlok
  obtain rfl : s.nextPins = first := nextPins_of_inputs hin
  have hstart : step s = .next (s.beginCycle.inFrame 0) := step_of_display hidle hrst hvalid hdata
  have hframe := run_inFrame htakes hlrst hlverdict hlok (s := s.beginCycle) (k := 0) hreal
    (by rw [beginCycle_inputs, hin]; rfl) (by omega)
  obtain ⟨hbeats, hresponses, hafter⟩ := State.Run.cons hstart hframe
  rw [hlen] at hbeats hresponses hafter
  refine ⟨?_, hresponses, ?_⟩
  · rw [hbeats, State.frameBeats, List.range_eq_range']
    rfl
  · rw [hafter]
    simp only [State.displayed, State.beginCycle, hidle, hidx]

end Sys2Proof.Machine
end

