-- ==== Sys2Proof/Proofs/Memory.lean ====
section
/-! PROOFS. The pixel store under SETPIX and GETPIX in range (40_pixel_access.md R80, R81; R45, R46). -/

namespace Sys2Proof.Machine

/-! ### The meanings where both coordinates address a cell -/

theorem exec_setpix_of_cellFor {s : State} {x y : Byte} {a : CellAddr} (pix : Pixel) (h : s.cellFor x y = some a) :
    exec (.setpix x y pix) s = .next ((s.writeCell a pix).respond statusOk 0) := by
  simp only [exec, execSetpix, h]

theorem exec_getpix_of_cellFor {s : State} {x y : Byte} {a : CellAddr} (h : s.cellFor x y = some a) :
    exec (.getpix x y) s = .next (s.respond statusOk (s.readCell a)) := by
  simp only [exec, execGetpix, h]

/-! ### SETPIX -/

/-- Settles O14: the store after a SETPIX in range is the one after `writeCell`, whose rules give the cell written, the other
cells and the canonical form. -/
theorem setpixWritesOneCell : Obligations.SetpixWritesOneCell := by
  intro s x y pix hwf hx hy
  have hrun := exec_setpix_of_cellFor pix (cellFor_some s x y hx hy)
  refine ⟨_, hrun, ?written, fun b hb => ?others, ?canonical, rfl⟩
  case written => exact readCell_writeCell_same s _ pix hwf
  case others => exact readCell_writeCell_other s _ b pix hb
  case canonical => exact wf_writeCell s _ pix hwf

/-! ### GETPIX -/

/-- R46: neither the cell that coordinates address, nor what it holds, nor the response to come depends on the response
given before, so a GETPIX asked again answers the same state. -/
theorem exec_getpix_idempotent {s t : State} {x y : Byte} {a : CellAddr} (h : s.cellFor x y = some a)
    (ht : exec (.getpix x y) s = .next t) : exec (.getpix x y) t = .next t := by
  rw [exec_getpix_of_cellFor h] at ht
  cases ht
  have hagain : (s.respond statusOk (s.readCell a)).cellFor x y = some a := h
  rw [exec_getpix_of_cellFor hagain]
  rfl

/-- Settles O15: the answer is the response alone, and asked again it is the same by `exec_getpix_idempotent`. -/
theorem getpixReadsWithoutSideEffect : Obligations.GetpixReadsWithoutSideEffect := by
  intro s x y hx hy
  have hcell := cellFor_some s x y hx hy
  have hrun := exec_getpix_of_cellFor hcell
  exact ⟨_, hrun, rfl, exec_getpix_idempotent hcell hrun⟩

end Sys2Proof.Machine
end

