-- ==== Sys2Proof/Proofs/Encoding.lean ====
section
/-! PROOFS. The command words (30_encoding.md): decoding and encoding undo each other (R61, R67), the opcode map and the
illegal words (R63, R64), the source form (R73 to R75), and the status codes of the responses (R68, R69). -/

namespace Sys2Proof.Machine

/-! ### What the words of R73 decode to (R61, R67) -/

theorem decode_wordOf_setpix (x y : Byte) (pix : Pixel) : decode (wordOf 0x01#8 x y pix) = .ok (.setpix x y pix) := by
  simp [decode]

theorem decode_wordOf_getpix (x y : Byte) : decode (wordOf 0x02#8 x y 0) = .ok (.getpix x y) := by
  simp [decode]

theorem decode_wordOf_setrot (x y : Byte) : decode (wordOf 0x03#8 x y 0) = .ok (.setrot (x ++ y)) := by
  simp [decode, angleField_wordOf]

/-- R61, R67: no bit of an encoding is dropped, format by format. -/
theorem decode_encode (i : Instr) : decode (encode i) = .ok i := by
  cases i with
  | setpix x y pix => exact decode_wordOf_setpix x y pix
  | getpix x y => exact decode_wordOf_getpix x y
  | setrot angle =>
    have hbytes : angle.extractLsb' 8 8 ++ angle.extractLsb' 0 8 = angle :=
      (BitVec.extractLsb'_append_extractLsb'_eq_extractLsb' rfl).trans BitVec.extractLsb'_eq_self
    rw [encode_setrot, decode_wordOf_setrot, hbytes]
  | display => decide

/-- R67: the words that decode to an instruction are its encoding alone. -/
theorem decode_eq_ok_iff (w : CmdWord) (i : Instr) : decode w = .ok i ↔ encode i = w :=
  ⟨encode_of_decode, fun h => h ▸ decode_encode i⟩

/-- Settles O1: `decode_encode`, which needs nothing of the instruction. -/
theorem decodeEncodeRoundTrip : Obligations.DecodeEncodeRoundTrip := fun i _ => decode_encode i

/-- Settles O2: `encode_of_decode`, format by format. -/
theorem encodeDecodeRoundTrip : Obligations.EncodeDecodeRoundTrip := fun _ _ h => encode_of_decode h

/-- Settles O5: table V-D's legal words are encodings, and the decoder rejects the others by name. -/
theorem decodeOfWrittenOutWords : Obligations.DecodeOfWrittenOutWords :=
  ⟨decode_encode (.setpix 3 5 0x0A141E#24), decode_encode (.setpix 255 255 0xFFFFFF#24), decode_encode (.getpix 0 255),
    by decide, decode_encode (.setrot 270), decode_encode (.setrot 360), decode_encode .display, by decide, by decide,
    by decide⟩

/-! ### The opcode map (R63) -/

/-- R63: the row with an instruction's mnemonic covers its word, and no other row does. -/
theorem covers_encode (i : Instr) : Laws.TableRow.Statement i := by
  cases i with
  | setpix x y pix => exact Laws.TableRow.setpix x y pix
  | getpix x y => exact Laws.TableRow.getpix x y
  | setrot angle => exact Laws.TableRow.setrot angle
  | display => exact Laws.TableRow.display

/-- R61: format A with its angle written as two bytes. -/
theorem encode_setrot_append (x y : Byte) : encode (.setrot (x ++ y)) = wordOf 0x03#8 x y 0 := by
  rw [encode_setrot, BitVec.extractLsb'_append_eq_left, BitVec.extractLsb'_append_eq_right]

/-- R63: a mask and match admit only encodings, since they fix the opcode and the whole zero field of the format. -/
theorem encode_of_covers {row : OpcodeRow} (hrow : row ∈ opcodeMap) {w : CmdWord} (h : row.covers w = true) :
    ∃ i, encode i = w := by
  rw [← wordOf_fields w] at h ⊢
  generalize opField w = op, xField w = x, yField w = y, lowField w = z at h ⊢
  rw [Laws.TableRow.covers_iff op x y z row hrow] at h
  split_ifs at h
  · obtain rfl : op = 0x01#8 := by simpa using h
    exact ⟨.setpix x y z, encode_setpix x y z⟩
  · obtain ⟨rfl, rfl⟩ : op = 0x02#8 ∧ z = 0 := by simpa using h
    exact ⟨.getpix x y, encode_getpix x y⟩
  · obtain ⟨rfl, rfl⟩ : op = 0x03#8 ∧ z = 0 := by simpa using h
    exact ⟨.setrot (x ++ y), encode_setrot_append x y⟩
  · obtain ⟨⟨⟨rfl, rfl⟩, rfl⟩, rfl⟩ : ((op = 0x04#8 ∧ x = 0) ∧ y = 0) ∧ z = 0 := by simpa using h
    exact ⟨.display, encode_display⟩

/-- R63: a row covers exactly the words of its command. -/
theorem covers_iff_encode {row : OpcodeRow} (hrow : row ∈ opcodeMap) (w : CmdWord) :
    row.covers w = true ↔ ∃ i : Instr, encode i = w ∧ i.mnemonic = row.mnemonic := by
  constructor
  · intro h
    obtain ⟨i, rfl⟩ := encode_of_covers hrow h
    rw [covers_encode i row hrow, beq_iff_eq] at h
    exact ⟨i, rfl, h.symm⟩
  · rintro ⟨i, rfl, hname⟩
    rw [covers_encode i row hrow, beq_iff_eq, hname]

/-- R63: the map has one row for a mnemonic. -/
theorem opcodeMap_eq_of_mnemonic :
    ∀ row ∈ opcodeMap, ∀ row' ∈ opcodeMap, row.mnemonic = row'.mnemonic → row = row' := by decide

/-- Settles O3: a covered word is the encoding of a command of the row's mnemonic, which decodes to that one command. -/
theorem opcodeMapSaysWhatDecodes : Obligations.OpcodeMapSaysWhatDecodes := by
  constructor
  · intro row hrow w
    simp only [decode_eq_ok_iff]
    exact covers_iff_encode hrow w
  · intro row hrow row' hrow' w h h'
    obtain ⟨i, rfl, hname⟩ := (covers_iff_encode hrow w).1 h
    rw [covers_encode i row' hrow', beq_iff_eq] at h'
    exact opcodeMap_eq_of_mnemonic row hrow row' hrow' (hname.symm.trans h'.symm)

/-! ### The illegal words (R64) -/

theorem unassigned_iff (op : Byte) :
    op = 0x00#8 ∨ 0x05#8 ≤ op ↔ op ≠ 0x01#8 ∧ op ≠ 0x02#8 ∧ op ≠ 0x03#8 ∧ op ≠ 0x04#8 := by
  bv_omega

/-- R64's list of the illegal words, with the unassigned opcodes written as the ones that are not assigned. -/
theorem decode_error_iff (w : CmdWord) :
    (∃ e, decode w = .error e) ↔
      (opField w ≠ 0x01#8 ∧ opField w ≠ 0x02#8 ∧ opField w ≠ 0x03#8 ∧ opField w ≠ 0x04#8) ∨
        ((opField w = 0x02#8 ∨ opField w = 0x03#8) ∧ lowField w ≠ 0) ∨ (opField w = 0x04#8 ∧ tailField w ≠ 0) := by
  unfold decode
  split_ifs with hset hget hlow hrot hlow hdisp htail <;> simp_all

/-- R31: a step that accepts a word runs it. -/
theorem step_of_accepts {s : State} {w : CmdWord} (h : s.accepts = some w) : step s = runWord w s.beginCycle := by
  obtain ⟨hvalid, hready, rfl⟩ := accepts_eq_some_iff.1 h
  obtain ⟨hidle, hrst⟩ := (cmdReady_iff _ _).1 hready
  exact step_of_presented hidle hrst hvalid

/-- Settles O4: R64's list by the branches of `decode`, and an illegal word raises its condition in the accepting step. -/
theorem illegalWordsRaiseIllegalCommand : Obligations.IllegalWordsRaiseIllegalCommand := by
  intro w
  constructor
  · rw [decode_error_iff, ← unassigned_iff, or_assoc]
  · rintro s hacc ⟨e, he⟩
    exact ⟨_, (step_of_accepts hacc).trans (runWord_error w _ he), rfl, rfl, rfl, rfl, rfl, rfl, rfl, rfl⟩

/-! ### A word as a number (R42, R73) -/

theorem toNat_append_eq_add {m n : Nat} (u : BitVec m) (v : BitVec n) : (u ++ v).toNat = u.toNat * 2 ^ n + v.toNat := by
  rw [BitVec.toNat_append, ← Nat.shiftLeft_add_eq_or_of_lt v.isLt, Nat.shiftLeft_eq]

theorem toNat_encode_setpix (x y : Byte) (pix : Pixel) :
    (encode (.setpix x y pix)).toNat = ((0x01 * 256 + x.toNat) * 256 + y.toNat) * 2 ^ 24 + pix.toNat := by
  simp only [encode, toNat_append_eq_add, BitVec.toNat_ofNat]
  omega

theorem toNat_encode_getpix (x y : Byte) :
    (encode (.getpix x y)).toNat = ((0x02 * 256 + x.toNat) * 256 + y.toNat) * 2 ^ 24 := by
  simp only [encode, toNat_append_eq_add, BitVec.toNat_ofNat]
  omega

theorem toNat_encode_setrot (angle : BitVec 16) :
    (encode (.setrot angle)).toNat = (0x03 * 65536 + angle.toNat) * 2 ^ 24 := by
  simp only [encode, toNat_append_eq_add, BitVec.toNat_ofNat]
  omega

/-- R22: a pixel as the number of its three channels. -/
theorem pixel_of_channels {r g b : Nat} (hg : g < 256) (hb : b < 256) :
    BitVec.ofNat 8 r ++ BitVec.ofNat 8 g ++ BitVec.ofNat 8 b = BitVec.ofNat 24 ((r * 256 + g) * 256 + b) := by
  apply BitVec.eq_of_toNat_eq
  simp only [toNat_append_eq_add, BitVec.toNat_ofNat]
  omega

/-! ### The words of the source lines (R73 to R75) -/

theorem wellFormed_setpix_iff (x y r g b : Nat) :
    (SourceLine.setpix x y r g b).wellFormed = true ↔ x < 256 ∧ y < 256 ∧ r < 256 ∧ g < 256 ∧ b < 256 := by
  simp [SourceLine.wellFormed, and_assoc]

theorem wellFormed_setpixHash_iff (x y rgb : Nat) :
    (SourceLine.setpixHash x y rgb).wellFormed = true ↔ x < 256 ∧ y < 256 ∧ rgb < 2 ^ 24 := by
  simp [SourceLine.wellFormed, and_assoc]

theorem wellFormed_getpix_iff (x y : Nat) : (SourceLine.getpix x y).wellFormed = true ↔ x < 256 ∧ y < 256 := by
  simp [SourceLine.wellFormed]

theorem wellFormed_setrot_iff (angle : Nat) : (SourceLine.setrot angle).wellFormed = true ↔ angle < 2 ^ 16 := by
  simp [SourceLine.wellFormed]

theorem wellFormed_word_iff (v : Nat) : (SourceLine.word v).wellFormed = true ↔ v < 2 ^ 48 := by
  simp [SourceLine.wellFormed]

/-- R73, R74: SETPIX with its colour as three channels is format P with the pixel they make. -/
theorem commandWord_setpix {x y r g b : Nat} (h : (SourceLine.setpix x y r g b).wellFormed = true) :
    (SourceLine.setpix x y r g b).commandWord =
      some (encode (.setpix (BitVec.ofNat 8 x) (BitVec.ofNat 8 y) (BitVec.ofNat 24 ((r * 256 + g) * 256 + b)))) := by
  obtain ⟨-, -, -, hg, hb⟩ := (wellFormed_setpix_iff x y r g b).1 h
  rw [SourceLine.commandWord, if_pos h, ← pixel_of_channels hg hb, encode]
  simp only [BitVec.append_assoc, BitVec.cast_eq]

/-- R73, R75: the assembler refuses a line exactly when an operand does not fit; `RESET` has none. -/
theorem stimulus_isSome (line : SourceLine) : (stimulus line).isSome = line.wellFormed := by
  cases line with
  | reset mode => rfl
  | setpix | setpixHash | getpix | setrot | display | word =>
    simp only [stimulus, SourceLine.commandWord]
    split
    · rename_i hfits
      exact hfits.symm
    · rename_i hfits
      exact (Bool.eq_false_iff.2 hfits).symm

/-- Settles O6: a line's word is the encoding of the command that the line names, which decodes to it and is a number by its
format; the operands that fit are the ones with a word. -/
theorem sourceLinesAssemble : Obligations.SourceLinesAssemble := by
  refine ⟨?setpix, ?setpixHash, ?getpix, ?setrot, ?display, ?word, stimulus_isSome, fun _ => rfl⟩
  case setpix =>
    intro x y r g b h
    obtain ⟨hx, hy, hr, hg, hb⟩ := (wellFormed_setpix_iff x y r g b).1 h
    refine ⟨_, commandWord_setpix h, ?_, decode_encode _⟩
    simp only [toNat_encode_setpix, BitVec.toNat_ofNat]
    omega
  case setpixHash =>
    intro x y rgb h
    have hchannels : (rgb / 65536 * 256 + rgb / 256 % 256) * 256 + rgb % 256 = rgb := by omega
    obtain ⟨hx, hy, hrgb⟩ := (wellFormed_setpixHash_iff x y rgb).1 h
    have hfits := (wellFormed_setpix_iff x y (rgb / 65536) (rgb / 256 % 256) (rgb % 256)).2 (by omega)
    rw [commandWord_setpix hfits, hchannels]
    exact if_pos h
  case getpix =>
    intro x y h
    obtain ⟨hx, hy⟩ := (wellFormed_getpix_iff x y).1 h
    refine ⟨_, if_pos h, ?_, decode_encode _⟩
    simp only [toNat_encode_getpix, BitVec.toNat_ofNat]
    omega
  case setrot =>
    intro angle h
    have hangle := (wellFormed_setrot_iff angle).1 h
    refine ⟨_, if_pos h, ?_, decode_encode _⟩
    simp only [toNat_encode_setrot, BitVec.toNat_ofNat]
    omega
  case display => exact ⟨_, rfl, by decide, decode_encode .display⟩
  case word =>
    intro v h
    exact ⟨_, if_pos h, Nat.mod_eq_of_lt ((wellFormed_word_iff v).1 h)⟩

/-! ### The status codes (R68, R69) -/

/-- R69: an accepted word that is answered at once is answered with OK or with a condition. -/
theorem rsp_of_runWord {w : CmdWord} {s t : State} {r : RspWord} (h : runWord w s = .next t) (hs : s.rsp = none)
    (hr : t.rsp = some r) : (∃ d, r = responseWord statusOk d) ∨ ∃ e : Condition, r = responseWord e.code e.info := by
  cases runWord_cases h with
  | setpix _ _ _ _ _ _ ht | getpix _ _ _ _ _ ht | setrot _ _ _ _ ht => subst ht; cases hr; exact .inl ⟨_, rfl⟩
  | illegal _ _ ht | setpixOut _ _ _ _ _ ht | getpixOut _ _ _ _ ht | setrotBad _ _ _ ht =>
    subst ht; cases hr; exact .inr ⟨_, rfl⟩
  | display _ ht => subst ht; simp [hs] at hr

/-- R69, R140: every response is OK's, or a condition's with what it records. -/
theorem rsp_of_step {s t : State} {r : RspWord} (h : step s = .next t) (hr : t.rsp = some r) :
    (∃ d, r = responseWord statusOk d) ∨ ∃ e : Condition, r = responseWord e.code e.info := by
  cases step_cases h with
  | command _ _ _ ht => exact rsp_of_runWord ht rfl hr
  | success _ _ _ ht => subst ht; cases hr; exact .inl ⟨_, rfl⟩
  | earlySuccess _ _ _ _ _ ht | failure _ _ _ _ _ ht => subst ht; cases hr; exact .inr ⟨_, rfl⟩
  | reset _ ht | quiet _ _ _ ht => subst ht; cases hr
  | marker _ _ _ ht | payload _ _ _ _ _ _ ht | lastByte _ _ _ _ ht => subst ht; simp at hr

/-- Settles O23: every response is one of `rsp_of_step`'s, whose status and data are the condition's. -/
theorem statusCodesAreTheFive : Obligations.StatusCodesAreTheFive := by
  refine ⟨rfl, rfl, rfl, fun _ => rfl, rfl, fun s t r h hr => ?_⟩
  obtain ⟨d, rfl⟩ | ⟨e, rfl⟩ := rsp_of_step h hr
  · simp [statusOk]
  · cases e with
    | indexOutOfBounds | invalidRotation | illegalCommand => simp [Condition.code, Condition.info]
    | transportError cause =>
      have hhigh : (0#16 ++ cause).extractLsb' 8 16 = 0#16 := BitVec.extractLsb'_append_eq_left
      simp [Condition.code, Condition.info, hhigh]

end Sys2Proof.Machine
end

