-- ==== Sys2Proof/Proofs/PixelAccess.lean ====
section
/-! PROOFS. What GETPIX reads (40_pixel_access.md R81 to R84): the pixel at a coordinate, where a frame shows it (R98, R103),
and which steps leave it. -/

namespace Sys2Proof.Machine

/-! ### The address decoder loses nothing (R94, R96, R99) -/

theorem toNat_coordOf {v : Byte} (h : v.toNat < 16) : (coordOf v).toNat = v.toNat := by
  simpa [coordOf] using h

/-- R82: between coordinates in range, dropping the upper bits confuses none. -/
theorem coordOf_inj {v v' : Byte} (hv : v.toNat < 16) (hv' : v'.toNat < 16) (h : coordOf v = coordOf v') : v = v' := by
  have hnat : (coordOf v).toNat = (coordOf v').toNat := congrArg BitVec.toNat h
  rw [toNat_coordOf hv, toNat_coordOf hv'] at hnat
  exact BitVec.eq_of_toNat_eq hnat

/-- R94: the inverse transform undoes the transform, for each of the four quarter turns. -/
theorem rotTinv_rotT (q : Rotation) (x y : Coord) : rotTinv q (rotT q x y).1 (rotT q x y).2 = (x, y) := by
  obtain rfl | rfl | rfl | rfl : q = 0 ∨ q = 1 ∨ q = 2 ∨ q = 3 := by bv_omega
  · rfl
  · simp [rotT, rotTinv]
  · simp [rotT, rotTinv]
  · simp [rotT, rotTinv]

/-- R96: the frame position gives back the physical coordinate, in both scan orders. -/
theorem unscan_scan (o : ScanOrder) (x y : Coord) : unscan o (scan o x y) = (x, y) := by
  cases o with
  | rowMajor => exact Prod.ext BitVec.extractLsb'_append_eq_right BitVec.extractLsb'_append_eq_left
  | colMajor => exact Prod.ext BitVec.extractLsb'_append_eq_left BitVec.extractLsb'_append_eq_right

/-- R98, R103: the cell whose pixel stands at the frame position of the transformed coordinate is the one that SETPIX and
GETPIX reach: SERIALIZE undoes the transform on the way out, ACCESS applies it on the way in. -/
theorem outSrc_scan_rotT (c : Config) (q : Rotation) (x y : Coord) :
    outSrc c q (scan c.scanOrder (rotT q x y).1 (rotT q x y).2) = accAddr c q x y := by
  unfold outSrc accAddr
  cases c.rotStage with
  | serialize => simp only [unscan_scan, rotTinv_rotT]
  | access => rfl

theorem scan_inj {o : ScanOrder} {x y x' y' : Coord} (h : scan o x y = scan o x' y') : x = x' ∧ y = y' := by
  simpa only [unscan_scan, Prod.mk.injEq] using congrArg (unscan o) h

theorem rotT_inj {q : Rotation} {x y x' y' : Coord} (h : rotT q x y = rotT q x' y') : x = x' ∧ y = y' := by
  simpa only [rotTinv_rotT, Prod.mk.injEq] using congrArg (fun xy => rotTinv q xy.1 xy.2) h

/-- R99: different coordinates reach different cells, in every configuration. -/
theorem accAddr_inj {c : Config} {q : Rotation} {x y x' y' : Coord} (h : accAddr c q x y = accAddr c q x' y') :
    x = x' ∧ y = y' := by
  unfold accAddr at h
  cases hstage : c.rotStage with
  | serialize =>
    rw [hstage] at h
    exact scan_inj h
  | access =>
    rw [hstage] at h
    obtain ⟨hx, hy⟩ := scan_inj h
    exact rotT_inj (Prod.ext hx hy)

/-- R97: under SERIALIZE the cell that a coordinate addresses does not depend on the rotation. -/
theorem accAddr_of_serialize {c : Config} (h : c.rotStage = .serialize) (q q' : Rotation) (x y : Coord) :
    accAddr c q x y = accAddr c q' x y := by
  simp only [accAddr, h]

/-! ### The pixel at a coordinate (R81) -/

/-- The pixel that GETPIX reads at coordinates in range. -/
def State.pixelAt (s : State) (x y : Byte) : Pixel :=
  s.readCell (accAddr s.config s.rotation (coordOf x) (coordOf y))

/-- R81: GETPIX in range answers the pixel at its coordinates. -/
theorem exec_getpix_pixelAt (s : State) {x y : Byte} (hx : x.toNat < 16) (hy : y.toNat < 16) :
    exec (.getpix x y) s = .next { s with rsp := some (0x00#8 ++ s.pixelAt x y) } :=
  exec_getpix_of_cellFor (cellFor_some s x y hx hy)

theorem pixelAt_congr {s t : State} (hcells : t.cells = s.cells) (hconfig : t.config = s.config)
    (hrot : t.rotation = s.rotation) (x y : Byte) : t.pixelAt x y = s.pixelAt x y := by
  rw [State.pixelAt, hconfig, hrot]
  exact readCell_congr hcells _

theorem pixelAt_writeCell_same {s : State} {x y : Byte} {a : CellAddr} (pix : Pixel) (hwf : s.cells.wf = true)
    (ha : s.cellFor x y = some a) : (s.writeCell a pix).pixelAt x y = pix := by
  obtain ⟨-, -, rfl⟩ := cellFor_eq_some ha
  exact readCell_writeCell_same s _ pix hwf

/-- R83, R99: the cell that one coordinate addresses is no other coordinate's. -/
theorem pixelAt_writeCell_other {s : State} {x y x' y' : Byte} {a : CellAddr} (pix : Pixel)
    (ha : s.cellFor x y = some a) (hx' : x'.toNat < 16) (hy' : y'.toNat < 16) (hne : x' ≠ x ∨ y' ≠ y) :
    (s.writeCell a pix).pixelAt x' y' = s.pixelAt x' y' := by
  obtain ⟨hx, hy, rfl⟩ := cellFor_eq_some ha
  refine readCell_writeCell_other s _ _ pix fun h => ?_
  obtain ⟨hcx, hcy⟩ := accAddr_inj h
  obtain hne | hne := hne
  · exact hne (coordOf_inj hx' hx hcx)
  · exact hne (coordOf_inj hy' hy hcy)

/-- Under SERIALIZE the rotation has no part in what a coordinate reads (R92, R97). -/
theorem pixelAt_setRotation {s : State} (h : s.config.rotStage = .serialize) (q : Rotation) (x y : Byte) :
    (s.setRotation q).pixelAt x y = s.pixelAt x y :=
  congrArg s.readCell (accAddr_of_serialize h q s.rotation (coordOf x) (coordOf y))

/-- Settles O38: GETPIX reads the cell that the frame shows at the transformed coordinate, by `outSrc_scan_rotT`. -/
theorem frameShowsWhatGetpixReads : Obligations.FrameShowsWhatGetpixReads := by
  intro s x y hx hy
  dsimp only
  rw [exec_getpix_pixelAt s hx hy, State.pixelAt, State.shownPixel, outSrc_scan_rotT]

/-- Settles O20: a SETPIX writes the one cell that its own coordinate addresses. -/
theorem setpixLeavesOtherCoordinates : Obligations.SetpixLeavesOtherCoordinates := by
  intro s t x y x' y' pix _ hx hy hx' hy' hne h
  have ha := cellFor_some s x y hx hy
  rw [exec_setpix_of_cellFor pix ha] at h
  cases h
  refine ⟨_, exec_getpix_pixelAt s hx' hy', ?_⟩
  rw [exec_getpix_pixelAt _ hx' hy', ← pixelAt_writeCell_other pix ha hx' hy' hne]
  rfl

/-! ### What a step keeps, a run keeps -/

/-- A property of states that every step keeps whose sample of the pins has `P`, a run keeps whose samples all have it. Past
the end of the list the pins are quiet (log entry 1). -/
theorem after_of_step {P : Pins → Prop} {I : State → Prop} (hquiet : P Pins.quiet)
    (hstep : ∀ s t : State, step s = .next t → P s.nextPins → I s → I t) (n : Nat) {s : State}
    (hpins : ∀ p ∈ s.inputs.take n, P p) (hs : I s) : I (s.after n) := by
  induction n generalizing s with
  | zero => exact hs
  | succ n ih =>
    obtain ⟨hnext, hrest⟩ := pins_of_take_succ hquiet hpins
    cases h : step s with
    | next t =>
      rw [after_succ h]
      rw [← step_inputs h] at hrest
      exact ih hrest (hstep s t h hnext hs)
    | fault _ | refused _ => simpa only [State.after, h] using hs

/-- R6: no command word writes the parameters. -/
theorem runWord_config {w : CmdWord} {s t : State} (h : runWord w s = .next t) : t.config = s.config := by
  cases runWord_cases h <;> (rename_i ht; subst ht; rfl)

/-- R6: no step writes the parameters. -/
theorem step_config {s t : State} (h : step s = .next t) : t.config = s.config := by
  cases step_cases h with
  | command _ _ _ ht => exact (runWord_config ht).trans (beginCycle_config s)
  | reset _ ht | quiet _ _ _ ht | success _ _ _ ht | earlySuccess _ _ _ _ _ ht | failure _ _ _ _ _ ht => subst ht; rfl
  | marker _ _ _ ht | payload _ _ _ _ _ _ ht | lastByte _ _ _ _ ht => subst ht; simp

/-! ### A pixel stays until it is overwritten (R83) -/

/-- The words that may stand between a SETPIX at a coordinate and the GETPIX that reads it back: R83 excludes a SETPIX at the
same coordinate and, under ACCESS, a SETROT. -/
def wordLeavesPixel (stage : RotStage) (x y : Byte) (w : CmdWord) : Prop :=
  (∀ c : Pixel, decode w ≠ .ok (.setpix x y c)) ∧ (stage = .access → ∀ angle, decode w ≠ .ok (.setrot angle))

/-- The samples of the pins in which no Reset comes and no other word is presented. -/
def Pins.leavesPixel (stage : RotStage) (x y : Byte) (p : Pins) : Prop :=
  p.rst = false ∧ (p.cmdValid = true → wordLeavesPixel stage x y p.cmdData)

/-- R83: such a word, accepted, leaves what the coordinate reads. -/
theorem pixelAt_of_runWord {w : CmdWord} {s t : State} {x y : Byte} (hx : x.toNat < 16) (hy : y.toNat < 16)
    (h : runWord w s = .next t) (hw : wordLeavesPixel s.config.rotStage x y w) : t.pixelAt x y = s.pixelAt x y := by
  obtain ⟨hset, hrot⟩ := hw
  cases runWord_cases h with
  | setpix x' y' pix a hd ha ht =>
    subst ht
    refine pixelAt_writeCell_other pix ha hx hy (not_and_or.1 ?_)
    rintro ⟨rfl, rfl⟩
    exact hset pix hd
  | setrot angle q hd _ ht =>
    subst ht
    cases hstage : s.config.rotStage with
    | serialize => exact pixelAt_setRotation hstage q x y
    | access => exact absurd hd (hrot hstage angle)
  | illegal _ _ ht | setpixOut _ _ _ _ _ ht | getpix _ _ _ _ _ ht | getpixOut _ _ _ _ ht | setrotBad _ _ _ ht
  | display _ ht => subst ht; rfl

/-- R83, R123: so does a step, the framer's steps among them. -/
theorem pixelAt_of_step {s t : State} {x y : Byte} (hx : x.toNat < 16) (hy : y.toNat < 16) (h : step s = .next t)
    (hpins : s.nextPins.leavesPixel s.config.rotStage x y) : t.pixelAt x y = s.pixelAt x y := by
  obtain ⟨hrst, hcmd⟩ := hpins
  obtain ⟨hcells, hrot⟩ | ⟨w, hacc, hrun⟩ := unchanged_or_runWord h hrst
  · exact pixelAt_congr hcells (step_config h) hrot x y
  · obtain ⟨hvalid, -, rfl⟩ := accepts_eq_some_iff.1 hacc
    exact pixelAt_of_runWord (s := s.beginCycle) hx hy hrun (hcmd hvalid)

/-- R83: so does a run; the parameters, which say what the samples may hold, stay too. -/
theorem pixelAt_after {s : State} {x y : Byte} (hx : x.toNat < 16) (hy : y.toNat < 16) (n : Nat)
    (hpins : ∀ p ∈ s.inputs.take n, p.leavesPixel s.config.rotStage x y) :
    (s.after n).pixelAt x y = s.pixelAt x y := by
  have hkept := after_of_step (I := fun u => u.config = s.config ∧ u.pixelAt x y = s.pixelAt x y) ⟨rfl, nofun⟩ ?step n
    hpins ⟨rfl, rfl⟩
  case step =>
    rintro u v huv hnext ⟨hconfig, hpixel⟩
    rw [← hconfig] at hnext
    exact ⟨(step_config huv).trans hconfig, (pixelAt_of_step hx hy huv hnext).trans hpixel⟩
  exact hkept.2

/-- Settles O21: the canonical store reads back what SETPIX wrote, and the run leaves the pixel by `pixelAt_after`. -/
theorem writeReadRoundTrip : Obligations.WriteReadRoundTrip := by
  intro s t x y pix n hwf hx hy h hpins
  have ha := cellFor_some s x y hx hy
  rw [exec_setpix_of_cellFor pix ha] at h
  cases h
  have hread : ((s.writeCell _ pix).respond statusOk 0).pixelAt x y = pix := pixelAt_writeCell_same pix hwf ha
  rw [exec_getpix_pixelAt _ hx hy, pixelAt_after hx hy n hpins, hread]

/-! ### A coordinate that was never written reads black (R84) -/

/-- R84: while no SETPIX is presented, an empty store stays empty, through every Reset too. -/
theorem cells_nil_of_step {s t : State} (h : step s = .next t)
    (hcmd : s.nextPins.cmdValid = true →
      ∀ (x y : Byte) (pix : Pixel), decode s.nextPins.cmdData ≠ .ok (.setpix x y pix)) (hs : s.cells = []) : t.cells = [] := by
  cases hrst : s.nextPins.rst with
  | true =>
    rw [step_of_rst hrst] at h
    cases h
    rfl
  | false =>
    by_contra hne
    obtain ⟨hcells, -⟩ | ⟨w, hacc, hrun⟩ := unchanged_or_runWord h hrst
    · exact hne (hcells.trans hs)
    · obtain ⟨hvalid, -, rfl⟩ := accepts_eq_some_iff.1 hacc
      obtain ⟨x, y, pix, -, hw, -, -⟩ := setpix_of_runWord hrun fun hcells => hne (hcells.trans hs)
      exact hcmd hvalid x y pix ((decode_eq_ok_iff _ _).2 hw.symm)

/-- Settles O22: the store is empty at reset and stays so by `cells_nil_of_step`, and an empty store reads black. -/
theorem defaultPixelsAreBlack : Obligations.DefaultPixelsAreBlack := by
  intro c strap ins n x y hx hy hpins
  have hempty := after_of_step (I := fun u => u.cells = []) nofun (fun _ _ => cells_nil_of_step) n
    (s := { State.resetWith c strap with inputs := ins }) hpins rfl
  refine ⟨_, exec_getpix_pixelAt _ hx hy, ?_⟩
  rw [State.pixelAt, readCell_of_no_cells hempty]
  rfl

end Sys2Proof.Machine
end

