-- ==== Sys2Proof/Proofs/Rotation.lean ====
section
/-! PROOFS. The rotation address decoder and SETROT (41_rotation.md R90 to R102): the transforms as the group of quarter turns,
the scan map, the addresses in the two designs, and what SETROT leaves. -/

namespace Sys2Proof.Machine

/-! ### The transforms (R93, R94) -/

theorem rotation_cases (q : Rotation) : q = 0 ∨ q = 1 ∨ q = 2 ∨ q = 3 := by bv_omega

section Tables

variable (x y : Coord)

@[simp] theorem rotT_zero : rotT 0 x y = (x, y) := rfl
@[simp] theorem rotT_one : rotT 1 x y = (15#4 - y, x) := rfl
@[simp] theorem rotT_two : rotT 2 x y = (15#4 - x, 15#4 - y) := rfl
@[simp] theorem rotT_three : rotT 3 x y = (y, 15#4 - x) := rfl
@[simp] theorem rotTinv_zero : rotTinv 0 x y = (x, y) := rfl
@[simp] theorem rotTinv_one : rotTinv 1 x y = (y, 15#4 - x) := rfl
@[simp] theorem rotTinv_two : rotTinv 2 x y = (15#4 - x, 15#4 - y) := rfl
@[simp] theorem rotTinv_three : rotTinv 3 x y = (15#4 - y, x) := rfl

end Tables

/-- R101: the mirrored coordinate, which never borrows. -/
theorem toNat_mirror (v : Coord) : (15#4 - v).toNat = 15 - v.toNat := by bv_omega

/-- R101: on four bits it is the complement. -/
theorem mirror_eq_not (v : Coord) : 15#4 - v = ~~~v := BitVec.allOnes_sub_eq_not v

/-- Settles O31: R93's lines, with the mirrored coordinate as a number. -/
theorem transformFormulas : Obligations.TransformFormulas := by
  intro x y
  refine ⟨rotT_zero x y, ?one, ?two, ?three⟩
  case one => simp only [rotT_one, toNat_mirror, and_self]
  case two => simp only [rotT_two, toNat_mirror, and_self]
  case three => simp only [rotT_three, toNat_mirror, and_self]

/-- R100: one more quarter turn. -/
theorem rotT_one_add (q : Rotation) (x y : Coord) : rotT (1 + q) x y = rotT 1 (rotT q x y).1 (rotT q x y).2 := by
  have hmirror (v : Coord) : 15#4 - (15#4 - v) = v := by bv_omega
  obtain rfl | rfl | rfl | rfl := rotation_cases q
  · rfl
  · rfl
  · exact Prod.ext (hmirror y).symm rfl
  · exact Prod.ext (hmirror x).symm rfl

/-- R100: the transforms compose by adding quarter turns, one at a time. -/
theorem rotT_rotT (q q' : Rotation) (x y : Coord) :
    rotT q (rotT q' x y).1 (rotT q' x y).2 = rotT (q + q') x y := by
  have htwo : (2 : Rotation) + q' = 1 + (1 + q') := by bv_omega
  have hthree : (3 : Rotation) + q' = 1 + (1 + (1 + q')) := by bv_omega
  obtain rfl | rfl | rfl | rfl := rotation_cases q
  · rw [rotT_zero, zero_add]
  · exact (rotT_one_add q' x y).symm
  · rw [htwo, rotT_one_add, rotT_one_add]
    exact rotT_one_add 1 _ _
  · rw [hthree, rotT_one_add, rotT_one_add, rotT_one_add, ← rotT_one_add 1]
    exact rotT_one_add 2 _ _

theorem ofNat_toNat_add_mod (q q' : Rotation) : BitVec.ofNat 2 ((q.toNat + q'.toNat) % 4) = q + q' := by bv_omega

/-- Settles O36: `rotT_rotT`, with the sum of quarter turns as a number modulo 4. -/
theorem transformsCompose : Obligations.TransformsCompose := by
  intro q q' x y
  rw [ofNat_toNat_add_mod]
  exact rotT_rotT q q' x y

/-- R94: the inverse transform is the transform by the opposite number of quarter turns. -/
theorem rotTinv_eq_rotT_neg (q : Rotation) (x y : Coord) : rotTinv q x y = rotT (-q) x y := by
  obtain rfl | rfl | rfl | rfl := rotation_cases q <;> rfl

theorem ofNat_four_sub_mod (q : Rotation) : BitVec.ofNat 2 ((4 - q.toNat) % 4) = -q := by bv_omega

/-- R94: the transform undoes the inverse transform, since their quarter turns add up to none. -/
theorem rotT_rotTinv (q : Rotation) (x y : Coord) : rotT q (rotTinv q x y).1 (rotTinv q x y).2 = (x, y) := by
  rw [rotTinv_eq_rotT_neg, rotT_rotT, add_neg_cancel, rotT_zero]

/-- Settles O32: R94's lines, the inverse as the opposite turn, and the two cancellations. -/
theorem inverseTransform : Obligations.InverseTransform := by
  intro q x y
  refine ⟨⟨rotTinv_zero x y, ?one, ?two, ?three⟩, ?opposite, rotTinv_rotT q x y, rotT_rotTinv q x y⟩
  case one => simp only [rotTinv_one, toNat_mirror, and_self]
  case two => simp only [rotTinv_two, toNat_mirror, and_self]
  case three => simp only [rotTinv_three, toNat_mirror, and_self]
  case opposite => rw [ofNat_four_sub_mod, rotTinv_eq_rotT_neg]

/-! ### The scan map (R95, R96) -/

/-- R95, as arithmetic. -/
theorem toNat_scan_rowMajor (x y : Coord) : (scan .rowMajor x y).toNat = 16 * y.toNat + x.toNat := by
  have h : (y ++ x).toNat = y.toNat * 2 ^ 4 + x.toNat := toNat_append_eq_add y x
  rw [scan, h]
  omega

theorem toNat_scan_colMajor (x y : Coord) : (scan .colMajor x y).toNat = 16 * x.toNat + y.toNat :=
  toNat_scan_rowMajor y x

/-- The halves of a frame position, as arithmetic (R96). -/
theorem toNat_lowHalf (p : CellAddr) : (p.extractLsb' 0 4).toNat = p.toNat % 16 := by
  rw [BitVec.extractLsb'_toNat, Nat.shiftRight_zero]

theorem toNat_highHalf (p : CellAddr) : (p.extractLsb' 4 4).toNat = p.toNat / 16 := by
  have hp : p.toNat < 256 := p.isLt
  rw [BitVec.extractLsb'_toNat, Nat.shiftRight_eq_div_pow]
  omega

/-- R96: the physical coordinate gives back the frame position, in both scan orders. -/
theorem scan_unscan (o : ScanOrder) (p : CellAddr) : scan o (unscan o p).1 (unscan o p).2 = p := by
  have hhalves : p.extractLsb' 4 4 ++ p.extractLsb' 0 4 = p :=
    (BitVec.extractLsb'_append_extractLsb'_eq_extractLsb' rfl).trans BitVec.extractLsb'_eq_self
  cases o with
  | rowMajor => exact hhalves
  | colMajor => exact hhalves

/-- R95: the two corners that every scan order fixes. -/
theorem scan_corners (o : ScanOrder) : scan o 0 0 = 0 ∧ scan o 15 15 = 255 := by
  cases o with
  | rowMajor => decide
  | colMajor => decide

/-- Settles O33: R95 and R96 as arithmetic, and the two round trips. -/
theorem scanFormulas : Obligations.ScanFormulas := fun x y p o =>
  ⟨toNat_scan_rowMajor x y, toNat_scan_colMajor x y, ⟨toNat_lowHalf p, toNat_highHalf p⟩,
    ⟨toNat_highHalf p, toNat_lowHalf p⟩, scan_unscan o p, unscan_scan o x y, scan_corners o⟩

/-! ### The addresses in the two designs (R97, R98, R102) -/

theorem accAddr_serialize {c : Config} (h : c.rotStage = .serialize) (q : Rotation) (x y : Coord) :
    accAddr c q x y = scan c.scanOrder x y := by
  simp only [accAddr, h]

theorem outSrc_serialize {c : Config} (h : c.rotStage = .serialize) (q : Rotation) (p : CellAddr) :
    outSrc c q p = scan c.scanOrder (rotTinv q (unscan c.scanOrder p).1 (unscan c.scanOrder p).2).1
      (rotTinv q (unscan c.scanOrder p).1 (unscan c.scanOrder p).2).2 := by
  simp only [outSrc, h]

theorem accAddr_access {c : Config} (h : c.rotStage = .access) (q : Rotation) (x y : Coord) :
    accAddr c q x y = scan c.scanOrder (rotT q x y).1 (rotT q x y).2 := by
  simp only [accAddr, h]

theorem outSrc_access {c : Config} (h : c.rotStage = .access) (q : Rotation) (p : CellAddr) : outSrc c q p = p := by
  simp only [outSrc, h]

/-- Settles O34: both addresses in both arms of `ROT_STAGE`. -/
theorem addressFunctionsByStage : Obligations.AddressFunctionsByStage := fun _ q x y p =>
  ⟨fun h => ⟨accAddr_serialize h q x y, outSrc_serialize h q p⟩, fun h => ⟨accAddr_access h q x y, outSrc_access h q p⟩⟩

/-- The two parameter choices of R102's table: SERIALIZE with either scan order. -/
def serializeConfig (sof : Byte) (o : ScanOrder) : Config := { sof := sof, scanOrder := o, rotStage := .serialize }

theorem outSrc_rowMajor_one (sof : Byte) (p : CellAddr) :
    outSrc (serializeConfig sof .rowMajor) 1 p = ~~~(p.extractLsb' 0 4) ++ p.extractLsb' 4 4 :=
  congrArg (· ++ p.extractLsb' 4 4) (mirror_eq_not (p.extractLsb' 0 4))

theorem outSrc_rowMajor_three (sof : Byte) (p : CellAddr) :
    outSrc (serializeConfig sof .rowMajor) 3 p = p.extractLsb' 0 4 ++ ~~~(p.extractLsb' 4 4) :=
  congrArg (p.extractLsb' 0 4 ++ ·) (mirror_eq_not (p.extractLsb' 4 4))

theorem toNat_outSrc_rowMajor_one (sof : Byte) (p : CellAddr) :
    (outSrc (serializeConfig sof .rowMajor) 1 p).toNat = 16 * (15 - p.toNat % 16) + p.toNat / 16 := by
  have h := toNat_scan_rowMajor (p.extractLsb' 4 4) (15#4 - p.extractLsb' 0 4)
  rwa [toNat_mirror, toNat_lowHalf, toNat_highHalf] at h

theorem toNat_outSrc_rowMajor_three (sof : Byte) (p : CellAddr) :
    (outSrc (serializeConfig sof .rowMajor) 3 p).toNat = 16 * (p.toNat % 16) + (15 - p.toNat / 16) := by
  have h := toNat_scan_rowMajor (15#4 - p.extractLsb' 4 4) (p.extractLsb' 0 4)
  rwa [toNat_mirror, toNat_lowHalf, toNat_highHalf] at h

/-- Half a turn reads the store backwards. -/
theorem toNat_outSrc_rowMajor_two (sof : Byte) (p : CellAddr) :
    (outSrc (serializeConfig sof .rowMajor) 2 p).toNat = 255 - p.toNat := by
  have h := toNat_scan_rowMajor (15#4 - p.extractLsb' 0 4) (15#4 - p.extractLsb' 4 4)
  rw [toNat_mirror, toNat_mirror, toNat_lowHalf, toNat_highHalf] at h
  have hp : p.toNat < 256 := p.isLt
  exact h.trans (by omega)

/-- R102's second column is its first with the turns the other way round: a transposed grid turns backwards. -/
theorem outSrc_colMajor (sof : Byte) (q : Rotation) (p : CellAddr) :
    outSrc (serializeConfig sof .colMajor) q p = outSrc (serializeConfig sof .rowMajor) (-q) p := by
  obtain rfl | rfl | rfl | rfl := rotation_cases q <;> rfl

/-- Settles O37: the first column of R102's table, as bits and as arithmetic, and the second by `outSrc_colMajor`. -/
theorem outputSourceClosedForms : Obligations.OutputSourceClosedForms := by
  intro sof p row col
  have hcol (q : Rotation) : outSrc col q p = outSrc row (-q) p := outSrc_colMajor sof q p
  have hcol1 : outSrc col 1 p = outSrc row 3 p := hcol 1
  have hcol2 : outSrc col 2 p = outSrc row 2 p := hcol 2
  have hcol3 : outSrc col 3 p = outSrc row 1 p := hcol 3
  rw [hcol1, hcol2, hcol3]
  exact ⟨scan_unscan .rowMajor p, scan_unscan .colMajor p, outSrc_rowMajor_one sof p, outSrc_rowMajor_three sof p,
    toNat_outSrc_rowMajor_two sof p, toNat_outSrc_rowMajor_two sof p, outSrc_rowMajor_three sof p, outSrc_rowMajor_one sof p,
    toNat_outSrc_rowMajor_one sof p, toNat_outSrc_rowMajor_three sof p, toNat_outSrc_rowMajor_three sof p,
    toNat_outSrc_rowMajor_one sof p⟩

/-! ### The decoder is a bijection (R99) -/

theorem rotT_bijective (q : Rotation) : Function.Bijective (fun xy : Coord × Coord => rotT q xy.1 xy.2) :=
  Function.bijective_iff_has_inverse.2
    ⟨fun xy => rotTinv q xy.1 xy.2, fun xy => rotTinv_rotT q xy.1 xy.2, fun xy => rotT_rotTinv q xy.1 xy.2⟩

theorem scan_bijective (o : ScanOrder) : Function.Bijective (fun xy : Coord × Coord => scan o xy.1 xy.2) :=
  Function.bijective_iff_has_inverse.2 ⟨unscan o, fun xy => unscan_scan o xy.1 xy.2, scan_unscan o⟩

/-- The frame position at which a coordinate is shown (R98), in both designs. -/
theorem scan_rotT_bijective (o : ScanOrder) (q : Rotation) :
    Function.Bijective (fun xy : Coord × Coord => scan o (rotT q xy.1 xy.2).1 (rotT q xy.1 xy.2).2) :=
  (scan_bijective o).comp (rotT_bijective q)

theorem accAddr_bijective (c : Config) (q : Rotation) :
    Function.Bijective (fun xy : Coord × Coord => accAddr c q xy.1 xy.2) := by
  cases h : c.rotStage with
  | serialize => simpa only [accAddr_serialize h] using scan_bijective c.scanOrder
  | access => simpa only [accAddr_access h] using scan_rotT_bijective c.scanOrder q

/-- By R103 the cell shown at a coordinate's frame position is the coordinate's own, so both bijections give a third. -/
theorem outSrc_bijective (c : Config) (q : Rotation) : Function.Bijective (outSrc c q) := by
  refine (Function.Bijective.of_comp_iff (outSrc c q) (scan_rotT_bijective c.scanOrder q)).1 ?_
  simpa only [Function.comp_def, outSrc_scan_rotT] using accAddr_bijective c q

/-- R99: a fixed point would be a coordinate that is its own mirror image, `2x = 15`. -/
theorem rotT_ne_self {q : Rotation} (hq : q ≠ 0) (x y : Coord) : rotT q x y ≠ (x, y) := by
  obtain rfl | rfl | rfl | rfl := rotation_cases q
  · exact absurd rfl hq
  · rw [rotT_one, Ne, Prod.mk.injEq]
    bv_omega
  · rw [rotT_two, Ne, Prod.mk.injEq]
    bv_omega
  · rw [rotT_three, Ne, Prod.mk.injEq]
    bv_omega

/-- R99: where two rotations agreed, their difference would have a fixed point. -/
theorem rotT_ne_rotT {q q' : Rotation} (hne : q ≠ q') (x y : Coord) : rotT q x y ≠ rotT q' x y := by
  intro h
  refine rotT_ne_self (q := -q' + q) (fun hq => hne (neg_add_eq_zero.1 hq).symm) x y ?_
  rw [← rotT_rotT, h, rotT_rotT, neg_add_cancel, rotT_zero]

/-- Settles O35: the bijections from the round trips of R94 and R96, the rest from R100's composition. -/
theorem decoderIsABijection : Obligations.DecoderIsABijection :=
  ⟨rotT_bijective, accAddr_bijective, outSrc_bijective, fun _ x y hq => rotT_ne_self hq x y,
    fun _ _ x y hne => rotT_ne_rotT hne x y⟩

/-! ### SETROT (R90, R91) -/

theorem exec_setrot_of_legal {angle : BitVec 16} {q : Rotation} (h : decodeAngle angle = some q) (s : State) :
    exec (.setrot angle) s = .next { s with rotation := q, rsp := some 0x00000000#32 } := by
  simp only [exec, execSetrot, h]
  rfl

theorem exec_setrot_of_illegal {angle : BitVec 16} (h : decodeAngle angle = none) (s : State) :
    exec (.setrot angle) s = .next { s with rsp := some 0x02000000#32 } := by
  simp only [exec, execSetrot, h]
  rfl

/-- R91: an angle that is none of the four legal ones has no quarter-turn count. -/
theorem decodeAngle_eq_none {angle : BitVec 16} (h0 : angle.toNat ≠ 0) (h90 : angle.toNat ≠ 90)
    (h180 : angle.toNat ≠ 180) (h270 : angle.toNat ≠ 270) : decodeAngle angle = none := by
  have hne (k : BitVec 16) (h : angle.toNat ≠ k.toNat) : angle ≠ k := fun hk => h (congrArg BitVec.toNat hk)
  rw [decodeAngle, if_neg (hne 0#16 h0), if_neg (hne 90#16 h90), if_neg (hne 180#16 h180), if_neg (hne 270#16 h270)]

/-- Settles O17: the four legal angles by their entries of `decodeAngle`, every other one by `decodeAngle_eq_none`. -/
theorem angleDecodeTable : Obligations.AngleDecodeTable := by
  intro s
  refine ⟨exec_setrot_of_legal rfl s, exec_setrot_of_legal rfl s, exec_setrot_of_legal rfl s, exec_setrot_of_legal rfl s, ?_⟩
  intro angle h0 h90 h180 h270
  exact exec_setrot_of_illegal (decodeAngle_eq_none h0 h90 h180 h270) s

/-- R92: a SETROT, of a legal angle or not, writes no cell; and no parameter (R6). -/
theorem exec_setrot_frame {angle : BitVec 16} {s t : State} (h : exec (.setrot angle) s = .next t) :
    t.cells = s.cells ∧ t.config = s.config := by
  cases hq : decodeAngle angle with
  | none =>
    rw [exec_setrot_of_illegal hq] at h
    cases h
    exact ⟨rfl, rfl⟩
  | some q =>
    rw [exec_setrot_of_legal hq] at h
    cases h
    exact ⟨rfl, rfl⟩

/-! ### What GETPIX and the frame depend on (R97, R98) -/

/-- R82: a SETPIX or a GETPIX whose coordinates address no cell raises the condition and nothing else. -/
theorem exec_setpix_of_out {s : State} {x y : Byte} (pix : Pixel) (h : s.cellFor x y = none) :
    exec (.setpix x y pix) s = .next (s.raise .indexOutOfBounds) := by
  simp only [exec, execSetpix, h]

theorem exec_getpix_of_out {s : State} {x y : Byte} (h : s.cellFor x y = none) :
    exec (.getpix x y) s = .next (s.raise .indexOutOfBounds) := by
  simp only [exec, execGetpix, h]

/-- R81: the answer of GETPIX is a function of the pixel at its coordinates. -/
theorem getpix_rsp_congr {s t u : State} {x y : Byte} (hpixel : t.pixelAt x y = s.pixelAt x y)
    (h : exec (.getpix x y) s = .next u) : ∃ v, exec (.getpix x y) t = .next v ∧ v.rsp = u.rsp := by
  by_cases hxy : x.toNat < 16 ∧ y.toNat < 16
  · obtain ⟨hx, hy⟩ := hxy
    rw [exec_getpix_pixelAt s hx hy] at h
    cases h
    exact ⟨_, exec_getpix_pixelAt t hx hy, by rw [hpixel]⟩
  · have hout : 16 ≤ x.toNat ∨ 16 ≤ y.toNat := by omega
    rw [exec_getpix_of_out (cellFor_none s x y hout)] at h
    cases h
    exact ⟨_, exec_getpix_of_out (cellFor_none t x y hout), rfl⟩

/-- R97: under SERIALIZE what a coordinate reads is a function of the store. -/
theorem pixelAt_of_serialize {s t : State} (h : s.config.rotStage = .serialize) (hcells : t.cells = s.cells)
    (hconfig : t.config = s.config) (x y : Byte) : t.pixelAt x y = s.pixelAt x y := by
  rw [State.pixelAt, hconfig, accAddr_of_serialize h t.rotation s.rotation]
  exact readCell_congr hcells _

/-- R98: under ACCESS the pixel shown at a position is a function of the store. -/
theorem shownPixel_of_access {s t : State} (h : s.config.rotStage = .access) (hcells : t.cells = s.cells)
    (hconfig : t.config = s.config) (p : CellAddr) : t.shownPixel p = s.shownPixel p := by
  rw [State.shownPixel, State.shownPixel, hconfig, outSrc_access h, outSrc_access h]
  exact readCell_congr hcells p

/-- R105: a payload byte is a function of the pixels shown. -/
theorem payloadByte_congr {s t : State} (hshown : ∀ p, t.shownPixel p = s.shownPixel p) (i : Nat) :
    t.payloadByte i = s.payloadByte i := by
  simp only [State.payloadByte, hshown]

/-- R107: the frame is a function of the marker and the pixels shown. -/
theorem frame_congr {s t : State} (hsof : t.config.sof = s.config.sof) (hshown : ∀ p, t.shownPixel p = s.shownPixel p) :
    t.frame = s.frame := by
  have hbyte (k : Nat) : t.frameByte k = s.frameByte k := by
    cases k with
    | zero => exact hsof
    | succ i => exact payloadByte_congr hshown i
  simp only [State.frame, funext hbyte]

/-! ### SETROT moves no pixel (R92) -/

/-- Settles O18: a SETROT writes no cell, and neither the access address under SERIALIZE nor the output source address under
ACCESS looks at the rotation. -/
theorem setrotMovesNoPixel : Obligations.SetrotMovesNoPixel := by
  intro s t angle h
  obtain ⟨hcells, hconfig⟩ := exec_setrot_frame h
  refine ⟨hcells, fun hserialize x y _ hget => ?_, fun haccess => ?_⟩
  · exact getpix_rsp_congr (pixelAt_of_serialize hserialize hcells hconfig x y) hget
  · exact frame_congr (by rw [hconfig]) (shownPixel_of_access haccess hcells hconfig)

end Sys2Proof.Machine
end

