-- ==== Sys2Proof/Proofs/Designs.lean ====
section
/-! PROOFS. The two designs under one rotation (41_rotation.md R103 item a): a simulation, step by step, between SERIALIZE and
ACCESS. -/

namespace Sys2Proof.Machine

/-! ### A SERIALIZE machine and its twin -/

/-- `s` in the ACCESS design, with the store `m`. -/
def State.inAccess (s : State) (m : Memory) : State :=
  { s with cells := m, config := { s.config with rotStage := .access } }

/-- The simulation relation: the SERIALIZE machine `s` and the ACCESS machine `s.inAccess m` hold one logical picture. -/
structure State.Twin (s : State) (m : Memory) : Prop where
  serialize : s.config.rotStage = .serialize
  wf : s.cells.wf = true
  wfAccess : m.wf = true
  picture : ∀ x y : Coord, (s.inAccess m).readCell (accAddr (s.inAccess m).config (s.inAccess m).rotation x y) =
    s.readCell (accAddr s.config s.rotation x y)

section Twin

variable {s t : State} {m : Memory} (h : s.Twin m)
include h

/-- The relation looks at the store, the rotation and the parameters alone. -/
theorem twin_congr (hcells : t.cells = s.cells) (hrot : t.rotation = s.rotation) (hconfig : t.config = s.config) :
    t.Twin m := by
  obtain ⟨hserialize, hwf, hwfAccess, hpicture⟩ := h
  refine ⟨hconfig ▸ hserialize, hcells ▸ hwf, hwfAccess, fun x y => ?_⟩
  have hs := hpicture x y
  simp only [State.inAccess, State.readCell] at hs ⊢
  rw [hcells, hrot, hconfig, hs]

theorem twin_pixelAt (x y : Byte) : (s.inAccess m).pixelAt x y = s.pixelAt x y := h.picture (coordOf x) (coordOf y)

/-- R98, R103: every frame position is some coordinate's, and there both designs show what the coordinate reads. -/
theorem twin_shownPixel (p : CellAddr) : (s.inAccess m).shownPixel p = s.shownPixel p := by
  obtain ⟨⟨x, y⟩, rfl⟩ := (scan_rotT_bijective s.config.scanOrder s.rotation).surjective p
  calc (s.inAccess m).shownPixel _
      = (s.inAccess m).readCell (accAddr (s.inAccess m).config (s.inAccess m).rotation x y) :=
        congrArg _ (outSrc_scan_rotT (s.inAccess m).config s.rotation x y)
    _ = s.readCell (accAddr s.config s.rotation x y) := h.picture x y
    _ = s.shownPixel _ := congrArg s.readCell (outSrc_scan_rotT s.config s.rotation x y).symm

theorem twin_payloadByte (i : Nat) : (s.inAccess m).payloadByte i = s.payloadByte i :=
  payloadByte_congr (twin_shownPixel h) i

/-- R80, R99: writing one coordinate in both designs keeps the pictures equal. -/
theorem twin_writeCell (pix : Pixel) (x y : Coord) :
    (s.writeCell (accAddr s.config s.rotation x y) pix).Twin
      ((s.inAccess m).writeCell (accAddr (s.inAccess m).config (s.inAccess m).rotation x y) pix).cells := by
  refine ⟨h.serialize, wf_writeCell s _ pix h.wf, wf_writeCell (s.inAccess m) _ pix h.wfAccess, fun x' y' => ?_⟩
  by_cases hxy : x' = x ∧ y' = y
  · obtain ⟨rfl, rfl⟩ := hxy
    exact (readCell_writeCell_same (s.inAccess m) _ pix h.wfAccess).trans (readCell_writeCell_same s _ pix h.wf).symm
  · have hother (c : Config) : accAddr c s.rotation x' y' ≠ accAddr c s.rotation x y := fun he => hxy (accAddr_inj he)
    exact (readCell_writeCell_other (s.inAccess m) _ _ pix (hother _)).trans
      ((h.picture x' y').trans (readCell_writeCell_other s _ _ pix (hother _)).symm)

/-- R160: Reset leaves the empty picture in both designs. -/
theorem twin_applyReset (strap : Bool) : (s.applyReset strap).Twin [] :=
  ⟨h.serialize, Memory.wf_nil, Memory.wf_nil, fun _ _ => rfl⟩

end Twin

/-! ### Twins stay twins -/

/-- The two designs come to the same end: to twins, or to one fault. -/
inductive TwinOutcome : Host.Outcome State Fault Refusal → Host.Outcome State Fault Refusal → Prop where
  | next {t : State} {m : Memory} (h : t.Twin m) : TwinOutcome (.next t) (.next (t.inAccess m))
  | fault (r : Fault) : TwinOutcome (.fault r) (.fault r)

/-- R33: a beat is marked by the framer's state, so the same byte makes the same beat in both designs. -/
theorem sendBeat_inAccess (s : State) (m : Memory) (b : Byte) : (s.inAccess m).sendBeat b = (s.sendBeat b).inAccess m := by
  cases he : s.emulated with
  | true => rw [sendBeat_of_emulated s b he, sendBeat_of_emulated (s.inAccess m) b he]
  | false =>
    rw [sendBeat_of_real s b he, sendBeat_of_real (s.inAccess m) b he]
    rfl

section Step

variable {s : State} {m : Memory} (h : s.Twin m)
include h

/-- R80, R81, R109: the commands but SETROT. -/
theorem twin_exec {i : Instr} (hi : ∀ angle, i ≠ .setrot angle) : TwinOutcome (exec i s) (exec i (s.inAccess m)) := by
  cases i with
  | setpix x y pix =>
    by_cases hxy : x.toNat < 16 ∧ y.toNat < 16
    · obtain ⟨hx, hy⟩ := hxy
      rw [exec_setpix_of_cellFor pix (cellFor_some s x y hx hy),
        exec_setpix_of_cellFor pix (cellFor_some (s.inAccess m) x y hx hy)]
      exact .next (twin_congr (twin_writeCell h pix (coordOf x) (coordOf y)) rfl rfl rfl)
    · have hout : 16 ≤ x.toNat ∨ 16 ≤ y.toNat := by omega
      rw [exec_setpix_of_out pix (cellFor_none s x y hout), exec_setpix_of_out pix (cellFor_none (s.inAccess m) x y hout)]
      exact .next (twin_congr h rfl rfl rfl)
  | getpix x y =>
    by_cases hxy : x.toNat < 16 ∧ y.toNat < 16
    · obtain ⟨hx, hy⟩ := hxy
      rw [exec_getpix_pixelAt s hx hy, exec_getpix_pixelAt (s.inAccess m) hx hy, twin_pixelAt h]
      exact .next (twin_congr h rfl rfl rfl)
    · have hout : 16 ≤ x.toNat ∨ 16 ≤ y.toNat := by omega
      rw [exec_getpix_of_out (cellFor_none s x y hout), exec_getpix_of_out (cellFor_none (s.inAccess m) x y hout)]
      exact .next (twin_congr h rfl rfl rfl)
  | setrot angle => exact absurd rfl (hi angle)
  | display => exact .next (twin_congr h rfl rfl rfl)

theorem twin_runWord {w : CmdWord} (hw : ∀ angle, decode w ≠ .ok (.setrot angle)) :
    TwinOutcome (runWord w s) (runWord w (s.inAccess m)) := by
  cases hd : decode w with
  | error e =>
    rw [runWord_error w s hd, runWord_error w _ hd]
    exact .next (twin_congr h rfl rfl rfl)
  | ok i =>
    rw [runWord_ok w s hd, runWord_ok w _ hd]
    exact twin_exec h fun angle hi => hw angle (hi ▸ hd)

/-- R112, R113: the framer's beats, with the bytes that both designs send. -/
theorem twin_takeBeat : TwinOutcome (takeBeat s) (takeBeat (s.inAccess m)) := by
  have hsent (b : Byte) (f : Fsm) (i : Fin 768) :
      TwinOutcome (.next ((s.sendBeat b).setFramer f i)) (.next (((s.inAccess m).sendBeat b).setFramer f i)) := by
    rw [sendBeat_inAccess]
    exact .next (t := (s.sendBeat b).setFramer f i) (twin_congr h (by simp) (by simp) (by simp))
  cases hf : s.fsm with
  | idle | result =>
    simp only [takeBeat, hf, State.inAccess]
    exact .fault .notEnabled
  | sof =>
    rw [takeBeat_of_sof hf, takeBeat_of_sof (s := s.inAccess m) hf]
    exact hsent _ _ _
  | data =>
    by_cases hlt : s.txIdx.val < 767
    · rw [takeBeat_of_data hf hlt, takeBeat_of_data (s := s.inAccess m) hf hlt, twin_payloadByte h]
      exact hsent _ _ _
    · rw [takeBeat_of_last hf hlt, takeBeat_of_last (s := s.inAccess m) hf hlt, twin_payloadByte h]
      exact hsent _ _ _

/-- R114 to R117: a success is answered by the framer's state, which is the same in both designs. -/
theorem twin_takeSinkOk : TwinOutcome (takeSinkOk s) (takeSinkOk (s.inAccess m)) := by
  have hfsm : (s.inAccess m).fsm = s.fsm := rfl
  unfold takeSinkOk
  rw [hfsm]
  cases s.fsm with
  | idle => exact .next h
  | sof | data | result => exact .next (twin_congr h rfl rfl rfl)

/-- R114, R115, R117: so is a failure. -/
theorem twin_takeSinkFail (cause : Byte) : TwinOutcome (takeSinkFail cause s) (takeSinkFail cause (s.inAccess m)) := by
  have hfsm : (s.inAccess m).fsm = s.fsm := rfl
  unfold takeSinkFail
  rw [hfsm]
  cases s.fsm with
  | idle => exact .next h
  | sof | data | result => exact .next (twin_congr h rfl rfl rfl)

/-- R121: each kind of step. -/
theorem twin_takeEvent {e : Event} (he : ∀ w, e = .cmd w → ∀ angle, decode w ≠ .ok (.setrot angle)) :
    TwinOutcome (takeEvent e s) (takeEvent e (s.inAccess m)) := by
  have henabled : enabled e (s.inAccess m) = enabled e s := rfl
  unfold takeEvent
  rw [henabled]
  split
  · cases e with
    | reset strap => exact .next (twin_applyReset h strap)
    | cmd w => exact twin_runWord h (he w rfl)
    | beat => exact twin_takeBeat h
    | sinkOk => exact twin_takeSinkOk h
    | sinkFail cause => exact twin_takeSinkFail h cause
  · exact .fault .notEnabled

/-- The pins amount to the same step of R9 in both designs, and the step keeps them twins. -/
theorem twin_step (hpins : s.nextPins.cmdValid = true → ∀ angle, decode s.nextPins.cmdData ≠ .ok (.setrot angle)) :
    TwinOutcome (step s) (step (s.inAccess m)) := by
  have hbegin : s.beginCycle.Twin m := twin_congr h rfl rfl rfl
  cases he : eventOf s.nextPins s with
  | none =>
    have hs : step s = .next s.beginCycle := by simp only [step, runCycle, eventOf_beginCycle, he]
    have hu : step (s.inAccess m) = .next (s.beginCycle.inAccess m) := by
      have he' : eventOf (s.inAccess m).nextPins (s.inAccess m) = none := he
      simp only [step, runCycle, eventOf_beginCycle, he']
      rfl
    rw [hs, hu]
    exact .next hbegin
  | some e =>
    rw [step_of_event he, step_of_event (s := s.inAccess m) he]
    refine twin_takeEvent hbegin ?_
    rintro w rfl
    obtain ⟨hvalid, -, rfl⟩ := eventOf_eq_cmd_iff.1 he
    exact hpins hvalid

end Step

/-- R103 item a: twins show the same beats and the same responses, step by step. -/
theorem twin_outputs (n : Nat) {s : State} {m : Memory} (h : s.Twin m)
    (hpins : ∀ p ∈ s.inputs.take n, p.cmdValid = true → ∀ angle, decode p.cmdData ≠ .ok (.setrot angle)) :
    s.beats n = (s.inAccess m).beats n ∧ s.responses n = (s.inAccess m).responses n := by
  induction n generalizing s m with
  | zero => exact ⟨rfl, rfl⟩
  | succ n ih =>
    obtain ⟨hnow, hlater⟩ := pins_of_take_succ nofun hpins
    have hstep := twin_step h hnow
    generalize hs : step s = o, hu : step (s.inAccess m) = o' at hstep
    cases hstep with
    | @next t m' ht =>
      rw [← step_inputs hs] at hlater
      obtain ⟨hbeats, hresponses⟩ := ih ht hlater
      rw [beats_succ hs, beats_succ hu, responses_succ hs, responses_succ hu, hbeats, hresponses]
      exact ⟨rfl, rfl⟩
    | fault r => simp only [State.beats, State.responses, hs, hu, and_self]

/-- Settles O39: the two machines are twins, and twins show the same by `twin_outputs`. -/
theorem designsAgreeUnderOneRotation : Obligations.DesignsAgreeUnderOneRotation := by
  intro n s u hserialize hinv hwf hu hpicture hpins
  obtain ⟨m, rfl⟩ : ∃ m, u = s.inAccess m := ⟨u.cells, hu⟩
  obtain ⟨hcells, -⟩ := hinv
  exact twin_outputs n ⟨hserialize, hcells, hwf, fun x y => (hpicture x y).symm⟩ hpins

end Sys2Proof.Machine
end

