-- ==== Sys2Proof/Proofs/Display.lean ====
section
/-! PROOFS. Serialization, framing and DISPLAY (42_display.md R105 to R126): the bytes of a frame, the framer's steps with the
real and with the emulated sink, and what one DISPLAY comes to. -/

namespace Sys2Proof.Machine

/-! ### The payload bytes (R105) -/

/-- R22: the channels of a pixel, as arithmetic. -/
theorem toNat_redOf (v : Pixel) : (redOf v).toNat = v.toNat / 65536 := by
  have hv : v.toNat < 16777216 := v.isLt
  rw [redOf, BitVec.extractLsb'_toNat, Nat.shiftRight_eq_div_pow]
  omega

theorem toNat_greenOf (v : Pixel) : (greenOf v).toNat = v.toNat / 256 % 256 := by
  rw [greenOf, BitVec.extractLsb'_toNat, Nat.shiftRight_eq_div_pow]

theorem toNat_blueOf (v : Pixel) : (blueOf v).toNat = v.toNat % 256 := by
  rw [blueOf, BitVec.extractLsb'_toNat, Nat.shiftRight_zero]

theorem payloadByte_red (s : State) {i : Nat} (h : i % 3 = 0) :
    s.payloadByte i = redOf (s.shownPixel (BitVec.ofNat 8 (i / 3))) := by
  rw [State.payloadByte, h]
  rfl

theorem payloadByte_green (s : State) {i : Nat} (h : i % 3 = 1) :
    s.payloadByte i = greenOf (s.shownPixel (BitVec.ofNat 8 (i / 3))) := by
  rw [State.payloadByte, h]
  rfl

theorem payloadByte_blue (s : State) {i : Nat} (h : i % 3 = 2) :
    s.payloadByte i = blueOf (s.shownPixel (BitVec.ofNat 8 (i / 3))) := by
  rw [State.payloadByte, h]
  rfl

/-- Settles O40: payload byte `i` is the channel `i % 3` of a pixel shown, and each channel is a slice of it. -/
theorem payloadBytes : Obligations.PayloadBytes := by
  intro s i hi v
  refine ⟨by omega, fun hred => ?_, fun hgreen => ?_, fun hblue => ?_⟩
  · rw [payloadByte_red s hred]
    exact toNat_redOf v
  · rw [payloadByte_green s hgreen]
    exact toNat_greenOf v
  · rw [payloadByte_blue s hblue]
    exact toNat_blueOf v

/-! ### The frame (R107, R125) -/

theorem length_frame (s : State) : s.frame.length = 769 := by
  rw [State.frame, List.length_map, List.length_range]

theorem getElem?_frame (s : State) {k : Nat} (hk : k < 769) : s.frame[k]? = some (s.frameByte k) := by
  rw [State.frame, List.getElem?_map, List.getElem?_range hk]
  rfl

/-- Settles O41: byte `k` of the frame is `State.frameByte k`, which is the marker or a payload byte. -/
theorem frameIsMarkerAndPayload : Obligations.FrameIsMarkerAndPayload := by
  refine fun s => ⟨length_frame s, getElem?_frame s (by decide), fun k hk hk' => ?_⟩
  obtain ⟨i, rfl⟩ : ∃ i, k = i + 1 := ⟨k - 1, by omega⟩
  exact getElem?_frame s (by omega)

/-- R125: with rotation 0 the logical corner is in cell 0, in both designs and both scan orders. -/
theorem accAddr_corner (c : Config) : accAddr c 0 0 0 = 0 := by
  obtain ⟨hcorner, -⟩ := scan_corners c.scanOrder
  cases h : c.rotStage with
  | serialize => exact (accAddr_serialize h 0 0 0).trans hcorner
  | access => exact (accAddr_access h 0 0 0).trans hcorner

/-- With rotation 0 every frame position shows the cell of its own number. -/
theorem outSrc_zero (c : Config) (p : CellAddr) : outSrc c 0 p = p := by
  cases h : c.rotStage with
  | serialize => exact (outSrc_serialize h 0 p).trans (scan_unscan c.scanOrder p)
  | access => exact outSrc_access h 0 p

theorem channelOf_black (c : Nat) : channelOf c 0x000000#24 = 0x00#8 := by
  unfold channelOf
  split_ifs
  · rfl
  · rfl
  · rfl

theorem payloadByte_of_black {s : State} {i : Nat} (h : s.shownPixel (BitVec.ofNat 8 (i / 3)) = 0x000000#24) :
    s.payloadByte i = 0x00#8 := by
  rw [State.payloadByte, h, channelOf_black]

/-- The frame's first four bytes, marker and position 0, and the rest. -/
theorem frame_eq_append (s : State) :
    s.frame = [s.config.sof, s.payloadByte 0, s.payloadByte 1, s.payloadByte 2] ++
      (List.range 765).map fun i => s.payloadByte (3 + i) := by
  have hlen : Config.frameLen = 4 + 765 := rfl
  have hhead : (List.range 4).map s.frameByte =
      [s.config.sof, s.payloadByte 0, s.payloadByte 1, s.payloadByte 2] := rfl
  have htail (i : Nat) : s.frameByte (4 + i) = s.payloadByte (3 + i) := by
    rw [show 4 + i = (3 + i) + 1 by omega, State.frameByte]
  rw [State.frame, hlen, List.range_add, List.map_append, List.map_map, hhead]
  simp only [Function.comp_def, htail]

/-- Settles O42: position 0 shows the red cell 0, and every other position a black cell. -/
theorem workedFrame : Obligations.WorkedFrame := by
  intro s hrot hred hblack
  have hcorner := accAddr_corner s.config
  rw [hcorner] at hred hblack
  have hshown (p : CellAddr) : s.shownPixel p = s.readCell p := by
    rw [State.shownPixel, hrot, outSrc_zero]
  have hfirst : s.shownPixel 0 = 0xFF0000#24 := (hshown 0).trans hred
  have hr : s.payloadByte 0 = 0xFF#8 := (payloadByte_red s rfl).trans (congrArg redOf hfirst)
  have hg : s.payloadByte 1 = 0x00#8 := (payloadByte_green s rfl).trans (congrArg greenOf hfirst)
  have hb : s.payloadByte 2 = 0x00#8 := (payloadByte_blue s rfl).trans (congrArg blueOf hfirst)
  have hrest : (List.range 765).map (fun i => s.payloadByte (3 + i)) = List.replicate 765 0x00#8 := by
    refine List.eq_replicate_iff.2 ⟨by rw [List.length_map, List.length_range], fun b hb => ?_⟩
    obtain ⟨i, hi, rfl⟩ := List.mem_map.1 hb
    have hlt : i < 765 := List.mem_range.1 hi
    have hne : BitVec.ofNat 8 ((3 + i) / 3) ≠ 0 := by bv_omega
    exact payloadByte_of_black ((hshown _).trans (hblack _ hne))
  refine ⟨hcorner, outSrc_zero s.config 0, ?_⟩
  rw [frame_eq_append, hr, hg, hb, hrest]
  rfl

/-! ### What a frame depends on (R123) -/

section Congruence

variable {s t : State} (hcells : t.cells = s.cells) (hrot : t.rotation = s.rotation) (hconfig : t.config = s.config)
include hcells hrot hconfig

theorem shownPixel_congr (p : CellAddr) : t.shownPixel p = s.shownPixel p := by
  rw [State.shownPixel, hrot, hconfig]
  exact readCell_congr hcells _

theorem frameByte_congr (k : Nat) : t.frameByte k = s.frameByte k := by
  cases k with
  | zero => exact congrArg Config.sof hconfig
  | succ i => exact payloadByte_congr (shownPixel_congr hcells hrot hconfig) i

theorem frameBeats_congr : t.frameBeats = s.frameBeats := by
  refine List.map_congr_left fun k _ => ?_
  rw [State.frameBeat, State.frameBeat, frameByte_congr hcells hrot hconfig]

end Congruence

/-- R109: a DISPLAY, accepted, touches the framer alone. -/
theorem exec_display (s : State) : exec .display s = .next (s.inFrame 0) := rfl

/-- R123: which steps leave the store and the rotation. -/
theorem step_keeps_picture {s t : State} (h : step s = .next t) (hrst : s.nextPins.rst = false)
    (hread : s.fsm ≠ .idle ∨ s.accepts = none ∨ s.accepts = some (encode .display)) :
    t.cells = s.cells ∧ t.rotation = s.rotation := by
  obtain hkept | ⟨w, hacc, hrun⟩ := unchanged_or_runWord h hrst
  · exact hkept
  · obtain hbusy | hnone | hdisplay := hread
    · rw [accepts_eq_none (absurd · hbusy)] at hacc
      cases hacc
    · rw [hnone] at hacc
      cases hacc
    · obtain rfl : encode .display = w := Option.some_inj.1 (hdisplay.symm.trans hacc)
      rw [runWord_ok _ _ (decode_encode .display), exec_display] at hrun
      cases hrun
      exact ⟨rfl, rfl⟩

/-- Settles O29: such a step keeps the store, the rotation and the parameters, and the frame is a function of these. -/
theorem displayIsReadOnly : Obligations.DisplayIsReadOnly := by
  intro s t h hrst hread
  obtain ⟨hcells, hrot⟩ := step_keeps_picture h hrst hread
  have hconfig := step_config h
  exact ⟨hcells, hrot, frame_congr (congrArg Config.sof hconfig) (shownPixel_congr hcells hrot hconfig)⟩

/-- Settles O19: `exec_display`. -/
theorem displayStartsAFrame : Obligations.DisplayStartsAFrame := exec_display

/-! ### The framer's table (R114 to R117, R121) -/

section Table

variable {s : State}

theorem busy_of_offer (hoffer : s.fsm = .sof ∨ s.fsm = .data) : s.fsm ≠ .idle := by
  rcases hoffer with hf | hf <;> simp [hf]

theorem takeEvent_beat (hoffer : s.fsm = .sof ∨ s.fsm = .data) : takeEvent .beat s = takeBeat s :=
  if_pos ((enabled_beat_iff s).2 hoffer)

/-- R110, R121: no byte is on offer in IDLE and RESULT, so none is taken. -/
theorem takeEvent_beat_of_no_offer (hno : s.fsm = .idle ∨ s.fsm = .result) :
    takeEvent .beat s = .fault .notEnabled := by
  refine if_neg fun henabled => ?_
  have hoffer := (enabled_beat_iff s).1 henabled
  rcases hno with hf | hf <;> simp [hf] at hoffer

theorem takeEvent_cmd_of_busy (w : CmdWord) (hbusy : s.fsm ≠ .idle) : takeEvent (.cmd w) s = .fault .notEnabled :=
  if_neg fun henabled => hbusy ((enabled_cmd_iff w s).1 henabled)

/-- R116. -/
theorem takeEvent_sinkOk_of_offer (hreal : s.emulated = false) (hoffer : s.fsm = .sof ∨ s.fsm = .data) :
    takeEvent .sinkOk s = .next (s.raise (.transportError causeShortWrite)).endFrame := by
  have henabled : enabled .sinkOk s = true := by simp [enabled, hreal]
  rw [takeEvent, if_pos henabled]
  rcases hoffer with hf | hf <;> simp only [takeSinkOk, hf]

/-- R114, success. -/
theorem takeEvent_sinkOk_of_result (hf : s.fsm = .result) :
    takeEvent .sinkOk s = .next (s.respond statusOk 0).endFrame := by
  rw [takeEvent, if_pos (enabled_sinkOk_of_result hf)]
  simp only [takeSinkOk, hf]

/-- R114, R115, failure. -/
theorem takeEvent_sinkFail_of_busy (cause : Byte) (hreal : s.emulated = false) (hbusy : s.fsm ≠ .idle) :
    takeEvent (.sinkFail cause) s = .next (s.raise (.transportError cause)).endFrame := by
  have henabled : enabled (.sinkFail cause) s = true := by simp [enabled, hreal]
  rw [takeEvent, if_pos henabled]
  cases hf : s.fsm with
  | idle => exact absurd hf hbusy
  | sof | data | result => simp only [takeSinkFail, hf]

end Table

/-! ### Every step answers (R147, R148) -/

theorem exec_answers (i : Instr) (s : State) : ∃ t, exec i s = .next t := by
  cases i with
  | setpix x y pix =>
    cases hcell : s.cellFor x y with
    | none => exact ⟨_, exec_setpix_of_out pix hcell⟩
    | some a => exact ⟨_, exec_setpix_of_cellFor pix hcell⟩
  | getpix x y =>
    cases hcell : s.cellFor x y with
    | none => exact ⟨_, exec_getpix_of_out hcell⟩
    | some a => exact ⟨_, exec_getpix_of_cellFor hcell⟩
  | setrot angle =>
    cases hangle : decodeAngle angle with
    | none => exact ⟨_, exec_setrot_of_illegal hangle s⟩
    | some q => exact ⟨_, exec_setrot_of_legal hangle s⟩
  | display => exact ⟨_, exec_display s⟩

theorem runWord_answers (w : CmdWord) (s : State) : ∃ t, runWord w s = .next t := by
  cases hd : decode w with
  | error e => exact ⟨_, runWord_error w s hd⟩
  | ok i =>
    rw [runWord_ok w s hd]
    exact exec_answers i s

theorem takeBeat_answers {s : State} (hoffer : s.fsm = .sof ∨ s.fsm = .data) : ∃ t, takeBeat s = .next t := by
  obtain hf | hf := hoffer
  · exact ⟨_, takeBeat_of_sof hf⟩
  · by_cases hlt : s.txIdx.val < 767
    · exact ⟨_, takeBeat_of_data hf hlt⟩
    · exact ⟨_, takeBeat_of_last hf hlt⟩

theorem takeSinkOk_answers (s : State) : ∃ t, takeSinkOk s = .next t := by
  unfold takeSinkOk
  split <;> exact ⟨_, rfl⟩

theorem takeSinkFail_answers (cause : Byte) (s : State) : ∃ t, takeSinkFail cause s = .next t := by
  unfold takeSinkFail
  split <;> exact ⟨_, rfl⟩

/-- R121: a step that is enabled happens. -/
theorem takeEvent_answers {e : Event} {s : State} (henabled : enabled e s = true) : ∃ t, takeEvent e s = .next t := by
  unfold takeEvent
  rw [if_pos henabled]
  cases e with
  | reset strap => exact ⟨_, rfl⟩
  | cmd w => exact runWord_answers w s
  | beat => exact takeBeat_answers ((enabled_beat_iff s).1 henabled)
  | sinkOk => exact takeSinkOk_answers s
  | sinkFail cause => exact takeSinkFail_answers cause s

theorem step_of_no_event {s : State} (h : eventOf s.nextPins s = none) : step s = .next s.beginCycle := by
  simp only [step, runCycle, eventOf_beginCycle, h]

theorem step_answers (s : State) : ∃ t, step s = .next t := by
  cases he : eventOf s.nextPins s with
  | none => exact ⟨_, step_of_no_event he⟩
  | some e =>
    rw [step_of_event he]
    exact takeEvent_answers (s := s.beginCycle) (enabled_of_eventOf he)

/-! ### The bytes a sink has taken (R110) -/

/-- How many bytes of the frame in flight the sink has taken. -/
def State.taken (s : State) : Nat :=
  match s.fsm with
  | .idle => 0
  | .sof => 0
  | .data => s.txIdx.val + 1
  | .result => 769

theorem taken_of_sof {s : State} (hf : s.fsm = .sof) : s.taken = 0 := by simp only [State.taken, hf]

theorem taken_of_data {s : State} (hf : s.fsm = .data) : s.taken = s.txIdx.val + 1 := by simp only [State.taken, hf]

theorem taken_of_result {s : State} (hf : s.fsm = .result) : s.taken = 769 := by simp only [State.taken, hf]

/-- While a byte is on offer the frame is not complete. -/
theorem taken_lt_of_offer {s : State} (hoffer : s.fsm = .sof ∨ s.fsm = .data) : s.taken < 769 := by
  obtain hf | hf := hoffer
  · rw [taken_of_sof hf]; decide
  · rw [taken_of_data hf]; omega

theorem taken_le (s : State) : s.taken ≤ 769 := by
  cases hf : s.fsm with
  | idle => simp [State.taken, hf]
  | sof => exact (taken_lt_of_offer (.inl hf)).le
  | data => exact (taken_lt_of_offer (.inr hf)).le
  | result => exact (taken_of_result hf).le

theorem frameBeat_succ (s : State) (i : Nat) :
    s.frameBeat (i + 1) = { byte := s.payloadByte i, first := false, last := i == 767 } := by
  simp [State.frameBeat, State.frameByte]

/-- R71, R110, R112: what a real sink takes in SOF is the frame's first beat. -/
theorem sendBeat_of_sof {s : State} (hreal : s.emulated = false) (hf : s.fsm = .sof) :
    s.sendBeat s.config.sof = s.emitBeat (s.frameBeat 0) := by
  have hfirst : s.markFirst = true := by simp [State.markFirst, hf]
  have hlast : s.markLast = false := by simp [State.markLast, hf]
  rw [sendBeat_of_real s _ hreal, hfirst, hlast]
  rfl

/-- R71, R110, R113: what it takes in DATA is the beat behind the marker and the payload bytes before. -/
theorem sendBeat_of_data {s : State} (hreal : s.emulated = false) (hf : s.fsm = .data) :
    s.sendBeat (s.payloadByte s.txIdx.val) = s.emitBeat (s.frameBeat (s.txIdx.val + 1)) := by
  have hfirst : s.markFirst = false := by simp [State.markFirst, hf]
  have hlast : s.markLast = (s.txIdx.val == 767) := by simp [markLast_eq, hf]
  rw [sendBeat_of_real s _ hreal, hfirst, hlast, frameBeat_succ]

theorem take_frameBeats_succ (s : State) {k : Nat} (hk : k < 769) :
    s.frameBeats.take k ++ [s.frameBeat k] = s.frameBeats.take (k + 1) := by
  have hget : s.frameBeats[k]? = some (s.frameBeat k) := by
    rw [State.frameBeats, List.getElem?_map, List.getElem?_range hk]
    rfl
  rw [List.take_add_one, hget]
  rfl

/-! ### What one step does to a frame in flight (R111 to R116) -/

/-- R114 to R116: the answer to the sink's verdict after `m` bytes. -/
def Pins.answer (p : Pins) (m : Nat) : RspWord :=
  if p.resOk then (if m = 769 then 0x00000000#32 else 0x03000003#32) else 0x03#8 ++ (0x0000#16 ++ p.resCause)

/-- The answers a frame in flight may get in the next step: OK from the emulated sink, that to the verdict from a real one. -/
def State.mayAnswer (s : State) (r : RspWord) : Prop :=
  (s.emulated = true → r = 0x00000000#32) ∧
  (s.emulated = false → s.nextPins.resValid = true ∧ r = s.nextPins.answer s.taken)

/-- A step from a state with a frame in flight leaves it in flight, moved on by the beat it gives, or ends it with an
answer. -/
inductive FrameStep (s t : State) : Prop where
  | goesOn (hbusy : t.fsm ≠ .idle) (hrsp : t.rsp = none)
      (hsent : s.emulated = false → s.frameBeats.take s.taken ++ t.beat.toList = s.frameBeats.take t.taken)
  | ends (r : RspWord) (hrsp : t.rsp = some r) (hanswer : s.mayAnswer r) (hidle : t.fsm = .idle) (hidx : t.txIdx = 0)
      (hbeat : t.beat = none)

/-- R112, R113: the byte on offer is taken and the count of bytes grows by one. -/
theorem frameStep_of_byte {s : State} {b : Byte} {f : Fsm} {i : Fin 768} (hf : f ≠ .idle) (hlt : s.taken < 769)
    (hsend : s.emulated = false → s.beginCycle.sendBeat b = s.beginCycle.emitBeat (s.frameBeat s.taken))
    (htaken : ((s.beginCycle.sendBeat b).setFramer f i).taken = s.taken + 1) :
    FrameStep s ((s.beginCycle.sendBeat b).setFramer f i) := by
  refine .goesOn hf (by simp) fun hreal => ?_
  rw [htaken, setFramer_beat, hsend hreal]
  exact take_frameBeats_succ s hlt

/-- R111: everything that can happen to a frame in flight but Reset. -/
theorem frameStep_of_step {s t : State} (h : step s = .next t) (hrst : s.nextPins.rst = false)
    (hbusy : s.fsm ≠ .idle) : FrameStep s t := by
  cases step_cases h with
  | reset hr => simp [hrst] at hr
  | command _ hidle => exact absurd hidle hbusy
  | quiet _ _ _ ht => subst ht; exact .goesOn hbusy rfl fun _ => List.append_nil _
  | marker _ hf _ ht =>
    subst ht
    have htaken := taken_of_sof hf
    refine frameStep_of_byte nofun (by omega) (fun hreal => ?_) (by rw [htaken]; rfl)
    rw [htaken]
    exact sendBeat_of_sof (s := s.beginCycle) hreal hf
  | payload _ hf _ i hlt hi ht =>
    subst ht
    have htaken := taken_of_data hf
    refine frameStep_of_byte nofun (by omega) (fun hreal => ?_) (by rw [htaken, ← hi]; rfl)
    rw [htaken]
    exact sendBeat_of_data (s := s.beginCycle) hreal hf
  | lastByte _ hf _ hi ht =>
    subst ht
    have htaken := taken_of_data hf
    refine frameStep_of_byte nofun (by omega) (fun hreal => ?_) (by rw [htaken, hi]; rfl)
    rw [htaken]
    exact sendBeat_of_data (s := s.beginCycle) hreal hf
  | success _ hf hs ht =>
    subst ht
    refine .ends _ rfl ⟨fun _ => rfl, fun hreal => ?_⟩ rfl rfl rfl
    obtain ⟨hverdict, hok⟩ : s.nextPins.resValid = true ∧ s.nextPins.resOk = true := by simpa [hreal] using hs
    refine ⟨hverdict, ?_⟩
    rw [Pins.answer, if_pos hok, taken_of_result hf]
    rfl
  | earlySuccess _ hreal hverdict hok hf ht =>
    subst ht
    refine .ends _ rfl ⟨by simp [hreal], fun _ => ⟨hverdict, ?_⟩⟩ rfl rfl rfl
    rw [Pins.answer, if_pos hok, if_neg (taken_lt_of_offer hf).ne]
    rfl
  | failure _ hreal hverdict hfail _ ht =>
    subst ht
    refine .ends _ rfl ⟨by simp [hreal], fun _ => ⟨hverdict, ?_⟩⟩ rfl rfl rfl
    rw [Pins.answer, if_neg (by simp [hfail])]
    rfl

/-- R160, R161: the mode is Reset's alone to change. -/
theorem step_emulated {s t : State} (h : step s = .next t) (hrst : s.nextPins.rst = false) :
    t.emulated = s.emulated := by
  cases step_cases h with
  | reset hr => simp [hrst] at hr
  | command _ _ _ ht => cases runWord_cases ht <;> (rename_i ht; subst ht; rfl)
  | quiet _ _ _ ht | success _ _ _ ht | earlySuccess _ _ _ _ _ ht | failure _ _ _ _ _ ht => subst ht; rfl
  | marker _ _ _ ht | payload _ _ _ _ _ _ ht | lastByte _ _ _ _ ht => subst ht; simp

/-- R33, R120: the emulated sink's beats are internal. -/
theorem step_beat_of_emulated {s t : State} (h : step s = .next t) (hemu : s.emulated = true) : t.beat = none := by
  rw [step_beat h]
  exact portBeat_eq_none fun hvalid => by simp [txValid, hemu] at hvalid

/-! ### One DISPLAY as a transaction (R122) -/

/-- A transaction seen from one step earlier, a step to `t` that gave no answer. -/
def Transaction.cons (t : State) (d : Transaction) : Transaction :=
  { d with steps := d.steps + 1, beats := t.beat.toList ++ d.beats }

/-- What is followed of a frame is: nothing yet, or one step that answers it, or one step that does not and the rest. -/
theorem transact_induction {Q : Nat → State → Transaction → Prop}
    (stop : ∀ s, s.fsm ≠ .idle → Q 0 s { steps := 0, beats := [], response := none, final := s })
    (answer : ∀ n s t r, s.fsm ≠ .idle → s.nextPins.rst = false → step s = .next t → t.rsp = some r →
      Q (n + 1) s { steps := 1, beats := t.beat.toList, response := some r, final := t })
    (more : ∀ n s t d, s.fsm ≠ .idle → s.nextPins.rst = false → step s = .next t → t.rsp = none → Q n t d →
      Q (n + 1) s (d.cons t))
    (n : Nat) {s : State} (hbusy : s.fsm ≠ .idle) (hpins : ∀ p ∈ s.inputs.take n, p.rst = false) :
    Q n s (s.transact n) := by
  induction n generalizing s with
  | zero => exact stop s hbusy
  | succ n ih =>
    obtain ⟨hrst, hrest⟩ := pins_of_take_succ (P := fun p => p.rst = false) rfl hpins
    obtain ⟨t, h⟩ := step_answers s
    rw [← step_inputs h] at hrest
    simp only [State.transact, h]
    cases frameStep_of_step h hrst hbusy with
    | goesOn hbusy' hrsp =>
      simp only [hrsp]
      exact more n s t _ hbusy hrst h hrsp (ih hbusy' hrest)
    | ends r hrsp =>
      simp only [hrsp]
      exact answer n s t r hbusy hrst h hrsp

/-- The transaction `d` is the run from `s`: its steps up to the answer, all `n` if there is none. -/
structure Transaction.IsRun (n : Nat) (s : State) (d : Transaction) : Prop where
  steps_le : d.steps ≤ n
  final_eq : d.final = s.after d.steps
  beats_eq : d.beats = s.beats d.steps
  responses_eq : d.response.toList = s.responses d.steps
  steps_eq : d.response = none → d.steps = n

/-- R122, R123: `d` leaves the store and the rotation of `s`, and has the frame in flight until it is answered. -/
structure Transaction.OfFrame (s : State) (d : Transaction) : Prop where
  cells_eq : d.final.cells = s.cells
  rotation_eq : d.final.rotation = s.rotation
  idle_of_answer : d.response ≠ none → d.final.fsm = .idle ∧ d.final.txIdx = 0
  busy_of_no_answer : d.response = none → d.final.fsm ≠ .idle

/-- R120, R122 case v: no beat, and no answer but OK. -/
def Transaction.Silent (d : Transaction) : Prop :=
  d.beats = [] ∧ (d.response = none ∨ d.response = some 0x00000000#32)

/-- R122 cases i to iv: the bytes of the frame that the sink has taken in the end are the first `m`, and an answer is that to
the verdict of the answering cycle. -/
structure Transaction.Sends (s : State) (m : Nat) (d : Transaction) : Prop where
  beats_eq : s.frameBeats.take s.taken ++ d.beats = s.frameBeats.take m
  answer_eq : ∀ r, d.response = some r →
    ∃ k, d.steps = k + 1 ∧ (s.after k).nextPins.resValid = true ∧ r = (s.after k).nextPins.answer m

section Transact

variable (n : Nat) {s : State} (hbusy : s.fsm ≠ .idle) (hpins : ∀ p ∈ s.inputs.take n, p.rst = false)
include hbusy hpins

theorem transact_isRun : Transaction.IsRun n s (s.transact n) := by
  refine transact_induction (fun s _ => ⟨le_rfl, rfl, rfl, rfl, fun _ => rfl⟩) (fun n s t r _ _ h hrsp => ?answer)
    (fun n s t d _ _ h hrsp ih => ?more) n hbusy hpins
  case answer =>
    refine ⟨by simp, (after_succ h 0).symm, ?_, ?_, nofun⟩
    · rw [beats_succ h]
      exact (List.append_nil _).symm
    · rw [responses_succ h, hrsp]
      rfl
  case more =>
    obtain ⟨hle, hfinal, hbeats, hresponses, hsteps⟩ := ih
    refine ⟨Nat.succ_le_succ hle, ?_, ?_, ?_, fun hnone => congrArg Nat.succ (hsteps hnone)⟩
    · exact hfinal.trans (after_succ h _).symm
    · exact (congrArg (t.beat.toList ++ ·) hbeats).trans (beats_succ h _).symm
    · rw [Transaction.cons, responses_succ h, hrsp]
      exact hresponses

theorem transact_ofFrame : Transaction.OfFrame s (s.transact n) := by
  refine transact_induction (Q := fun _ => Transaction.OfFrame) (fun s hbusy => ⟨rfl, rfl, absurd rfl, fun _ => hbusy⟩)
    (fun n s t r hbusy hrst h hrsp => ?answer) (fun n s t d hbusy hrst h _ ih => ?more) n hbusy hpins
  case answer =>
    obtain ⟨hcells, hrot⟩ := step_keeps_picture h hrst (.inl hbusy)
    cases frameStep_of_step h hrst hbusy with
    | goesOn _ hnone => simp [hnone] at hrsp
    | ends _ _ _ hidle hidx => exact ⟨hcells, hrot, fun _ => ⟨hidle, hidx⟩, nofun⟩
  case more =>
    obtain ⟨hcells, hrot⟩ := step_keeps_picture h hrst (.inl hbusy)
    obtain ⟨hcells', hrot', hidle, hbusy'⟩ := ih
    exact ⟨hcells'.trans hcells, hrot'.trans hrot, hidle, hbusy'⟩

theorem transact_silent (hemu : s.emulated = true) : (s.transact n).Silent := by
  refine transact_induction (Q := fun _ s d => s.emulated = true → d.Silent) (fun s _ _ => ⟨rfl, .inl rfl⟩)
    (fun n s t r hbusy hrst h hrsp hemu => ?answer) (fun n s t d _ hrst h _ ih hemu => ?more) n hbusy hpins hemu
  case answer =>
    cases frameStep_of_step h hrst hbusy with
    | goesOn _ hnone => simp [hnone] at hrsp
    | ends r' hrsp' hanswer =>
      obtain ⟨hok, -⟩ := hanswer
      exact ⟨by rw [step_beat_of_emulated h hemu]; rfl, .inr (by rw [← hrsp, hrsp', hok hemu])⟩
  case more =>
    obtain ⟨hbeats, hresponse⟩ := ih ((step_emulated h hrst).trans hemu)
    refine ⟨?_, hresponse⟩
    rw [Transaction.cons, step_beat_of_emulated h hemu, hbeats]
    rfl

theorem transact_sends (hreal : s.emulated = false) : ∃ m ≤ 769, Transaction.Sends s m (s.transact n) := by
  refine transact_induction (Q := fun _ s d => s.emulated = false → ∃ m ≤ 769, Transaction.Sends s m d)
    (fun s _ _ => ⟨s.taken, taken_le s, List.append_nil _, nofun⟩) (fun n s t r hbusy hrst h hrsp hreal => ?answer)
    (fun n s t d hbusy hrst h hrsp ih hreal => ?more) n hbusy hpins hreal
  case answer =>
    cases frameStep_of_step h hrst hbusy with
    | goesOn _ hnone => simp [hnone] at hrsp
    | ends r' hrsp' hanswer _ _ hbeat =>
      obtain rfl : r' = r := Option.some_inj.1 (hrsp'.symm.trans hrsp)
      obtain ⟨-, hverdict⟩ := hanswer
      refine ⟨s.taken, taken_le s, by simp [hbeat], fun r hr => ⟨0, rfl, ?_⟩⟩
      cases hr
      exact hverdict hreal
  case more =>
    obtain ⟨hcells, hrot⟩ := step_keeps_picture h hrst (.inl hbusy)
    obtain ⟨m, hm, hbeats, hanswer⟩ := ih ((step_emulated h hrst).trans hreal)
    rw [frameBeats_congr hcells hrot (step_config h)] at hbeats
    refine ⟨m, hm, ?_, fun r hr => ?_⟩
    · cases frameStep_of_step h hrst hbusy with
      | goesOn _ _ hsent => rw [Transaction.cons, ← List.append_assoc, hsent hreal, hbeats]
      | ends r' hrsp' => simp [hrsp'] at hrsp
    · obtain ⟨k, hk, hverdict⟩ := hanswer r hr
      exact ⟨k + 1, congrArg Nat.succ hk, by rwa [after_succ h]⟩

end Transact

theorem answer_of_failure {p : Pins} (h : p.resOk = false) (m : Nat) :
    p.answer m = 0x03#8 ++ (0x0000#16 ++ p.resCause) := by
  rw [Pins.answer, if_neg (by simp [h])]

theorem answer_of_complete {p : Pins} (h : p.resOk = true) : p.answer 769 = 0x00000000#32 := by
  rw [Pins.answer, if_pos h, if_pos rfl]

theorem answer_of_short {p : Pins} (h : p.resOk = true) {m : Nat} (hm : m ≤ 768) : p.answer m = 0x03000003#32 := by
  rw [Pins.answer, if_pos h, if_neg (by omega)]

/-- Settles O52: the clauses on the run by `transact_isRun`, those on the state by `transact_ofFrame`, and the two sinks by
`transact_silent` and `transact_sends`; in SOF no byte is taken yet. -/
theorem displayTransaction : Obligations.DisplayTransaction := by
  intro n s hsof _ hpins d
  have hbusy : s.fsm ≠ .idle := by simp [hsof]
  obtain ⟨hle, hfinal, hbeats, hresponses, hsteps⟩ := transact_isRun n hbusy hpins
  obtain ⟨hcells, hrot, hidle, hpending⟩ := transact_ofFrame n hbusy hpins
  refine ⟨hle, hfinal, hbeats, hresponses, hcells, hrot, hidle, fun hnone => ⟨hsteps hnone, hpending hnone⟩,
    transact_silent n hbusy hpins, fun hreal => ?_⟩
  obtain ⟨m, hm, hsent, hanswer⟩ := transact_sends n hbusy hpins hreal
  rw [taken_of_sof hsof] at hsent
  refine ⟨m, hm, hsent, fun r hr => ?_⟩
  obtain ⟨k, hk, hverdict, rfl⟩ := hanswer r hr
  refine ⟨k, hk, hverdict, fun hfail => answer_of_failure hfail m, fun hok hm => ?_, fun hok => answer_of_short hok⟩
  rw [hm]
  exact answer_of_complete hok

/-! ### The sink's steps from the pins (R111, R120, R126) -/

section Sink

variable {s : State} (hrst : s.nextPins.rst = false)
include hrst

/-- R31, R111: with a frame in flight a cycle without Reset is the sink's. -/
theorem eventOf_of_busy (hbusy : s.fsm ≠ .idle) : eventOf s.nextPins s = sinkEvent s.nextPins s :=
  eventOf_of_no_command hrst (absurd · hbusy)

/-- R112, R113: a sink that takes the byte on offer, the emulated one or a real one. -/
theorem step_of_takesByte (hoffer : s.fsm = .sof ∨ s.fsm = .data) (hsink : s.takesByte) :
    step s = takeBeat s.beginCycle := by
  have hevent : eventOf s.nextPins s = some .beat := by
    rcases hemu : s.emulated with _ | _
    · exact eventOf_of_takes ⟨hrst, by simpa [State.takesByte, hemu] using hsink⟩ hemu hoffer
    · rw [eventOf_of_busy hrst (busy_of_offer hoffer)]
      rcases hoffer with hf | hf <;> simp [sinkEvent, emulatedSink, hemu, hf]
  rw [step_of_event hevent, takeEvent_beat (s := s.beginCycle) hoffer]

/-- R114, R120: the emulated sink takes a complete frame for a success. -/
theorem step_of_emulated_result (hemu : s.emulated = true) (hf : s.fsm = .result) :
    step s = .next (s.beginCycle.respond statusOk 0).endFrame := by
  have hevent : eventOf s.nextPins s = some .sinkOk := by
    rw [eventOf_of_busy hrst (by simp [hf])]
    simp [sinkEvent, emulatedSink, hemu, hf]
  rw [step_of_event hevent, takeEvent_sinkOk_of_result (s := s.beginCycle) hf]

/-- R169: a real sink that does nothing. -/
theorem step_of_waiting (hreal : s.emulated = false) (hbusy : s.fsm ≠ .idle) (hverdict : s.nextPins.resValid = false)
    (hready : s.nextPins.txReady = false) : step s = .next s.beginCycle := by
  refine step_of_no_event ?_
  rw [eventOf_of_busy hrst hbusy]
  simp [sinkEvent, hreal, hverdict, hready]

section Verdict

variable (hreal : s.emulated = false) (hverdict : s.nextPins.resValid = true)
include hreal hverdict

theorem step_of_verdict (hbusy : s.fsm ≠ .idle) : step s = takeEvent (verdict s.nextPins) s.beginCycle :=
  step_of_event ((eventOf_of_busy hrst hbusy).trans (sinkEvent_of_verdict hreal hverdict))

/-- R114, R115. -/
theorem step_of_sinkFail (hbusy : s.fsm ≠ .idle) (hfail : s.nextPins.resOk = false) :
    step s = .next (s.beginCycle.raise (.transportError s.nextPins.resCause)).endFrame := by
  rw [step_of_verdict hrst hreal hverdict hbusy, verdict, if_neg (by simp [hfail]),
    takeEvent_sinkFail_of_busy (s := s.beginCycle) _ hreal hbusy]

/-- R116. -/
theorem step_of_early_sinkOk (hoffer : s.fsm = .sof ∨ s.fsm = .data) (hok : s.nextPins.resOk = true) :
    step s = .next (s.beginCycle.raise (.transportError causeShortWrite)).endFrame := by
  have hbusy : s.fsm ≠ .idle := busy_of_offer hoffer
  rw [step_of_verdict hrst hreal hverdict hbusy, verdict, if_pos hok,
    takeEvent_sinkOk_of_offer (s := s.beginCycle) hreal hoffer]

/-- R114. -/
theorem step_of_sinkOk_in_result (hf : s.fsm = .result) (hok : s.nextPins.resOk = true) :
    step s = .next (s.beginCycle.respond statusOk 0).endFrame := by
  rw [step_of_verdict hrst hreal hverdict (by simp [hf]), verdict, if_pos hok,
    takeEvent_sinkOk_of_result (s := s.beginCycle) hf]

end Verdict

end Sink

/-! ### One step of a frame with the real sink (R112 to R116, R126) -/

/-- The next sample and the ones after it, by name. -/
theorem samples_of_inputs {s : State} {p : Pins} {rest : List Pins} (hin : s.inputs = p :: rest) :
    s.nextPins = p ∧ s.inputs.tail = rest := ⟨nextPins_of_inputs hin, by rw [hin, List.tail_cons]⟩

/-- Settles O43: the beat of SOF is the frame's first. -/
theorem markerBeat : Obligations.MarkerBeat := by
  intro s p rest hreal hf hin hrst hverdict hready
  obtain ⟨rfl, rfl⟩ := samples_of_inputs hin
  rw [step_of_takesByte hrst (.inl hf) (.inr ⟨hverdict, hready⟩), takeBeat_of_sof (s := s.beginCycle) hf,
    sendBeat_of_sof (s := s.beginCycle) hreal hf]
  rfl

/-- Settles O44: the beat of DATA is that of its payload byte, and there are two ways on from it. -/
theorem payloadBeat : Obligations.PayloadBeat := by
  intro s p rest hreal hf hin hrst hverdict hready
  obtain ⟨rfl, rfl⟩ := samples_of_inputs hin
  rw [step_of_takesByte hrst (.inr hf) (.inr ⟨hverdict, hready⟩)]
  have hsend := sendBeat_of_data (s := s.beginCycle) hreal hf
  refine ⟨fun i hlt hi => ?_, fun hlast => ?_⟩
  · have hnext : i = ⟨s.txIdx.val + 1, by omega⟩ := Fin.ext hi
    have hmark : (s.beginCycle.txIdx.val == 767) = false := beq_false_of_ne hlt.ne
    rw [takeBeat_of_data (s := s.beginCycle) hf hlt, hsend, frameBeat_succ, hmark, hnext, hf]
    rfl
  · rw [takeBeat_of_last (s := s.beginCycle) hf (by simp [hlast]), hsend, frameBeat_succ, beginCycle_txIdx, hlast]
    rfl

/-- Settles O46: the two verdicts before the last byte. -/
theorem earlyVerdictEndsTheFrame : Obligations.EarlyVerdictEndsTheFrame := by
  intro s p rest hreal hoffer hin hrst hverdict
  obtain ⟨rfl, rfl⟩ := samples_of_inputs hin
  have hbusy : s.fsm ≠ .idle := busy_of_offer hoffer
  refine ⟨fun hfail => ?_, fun hok => ?_⟩
  · rw [step_of_sinkFail hrst hreal hverdict hbusy hfail]
    rfl
  · rw [step_of_early_sinkOk hrst hreal hverdict hoffer hok]
    rfl

/-- Settles O11: a byte on offer means a frame in flight before its last byte, and there the verdict is what happens. -/
theorem verdictWinsOverBeat : Obligations.VerdictWinsOverBeat := by
  intro s p rest hin hrst hvalid _ hverdict
  obtain ⟨rfl, rfl⟩ := samples_of_inputs hin
  obtain ⟨-, hreal, hoffer⟩ := (txValid_iff _ _).1 hvalid
  have hbusy : s.fsm ≠ .idle := busy_of_offer hoffer
  rcases hok : s.nextPins.resOk with _ | _
  · exact ⟨_, step_of_sinkFail hrst hreal hverdict hbusy hok, rfl, rfl, rfl, rfl⟩
  · exact ⟨_, step_of_early_sinkOk hrst hreal hverdict hoffer hok, rfl, rfl, rfl, rfl⟩

/-- R114: a frame in flight is answered with success from RESULT only. -/
theorem result_of_success {s t : State} {r : RspWord} (h : step s = .next t) (hbusy : s.fsm ≠ .idle)
    (hrsp : t.rsp = some r) (hok : rspStatus r = 0x00#8) : s.fsm = .result := by
  cases step_cases h with
  | reset _ ht | quiet _ _ _ ht => subst ht; cases hrsp
  | command _ hidle => exact absurd hidle hbusy
  | marker _ _ _ ht | payload _ _ _ _ _ _ ht | lastByte _ _ _ _ ht => subst ht; simp at hrsp
  | success _ hf => exact hf
  | earlySuccess _ _ _ _ _ ht | failure _ _ _ _ _ ht =>
    subst ht
    cases hrsp
    simp [Condition.code] at hok

/-- Settles O45: the two verdicts in RESULT, and `result_of_success`. -/
theorem verdictInResult : Obligations.VerdictInResult := by
  refine ⟨fun s p rest hreal hf hidx hin hrst hverdict => ?_, fun _ _ _ => result_of_success⟩
  obtain ⟨rfl, rfl⟩ := samples_of_inputs hin
  refine ⟨by simp only [State.offered, hf], fun hok => ?_, fun hfail => ?_⟩
  · rw [step_of_sinkOk_in_result hrst hreal hverdict hf hok, hidx]
    rfl
  · rw [step_of_sinkFail hrst hreal hverdict (by simp [hf]) hfail, hidx]
    rfl

/-! ### The transition table (R121) -/

/-- R121: a word that is not DISPLAY is answered in its own step, and the block stays idle. -/
theorem runWord_answers_at_once {w : CmdWord} {s t : State} (hidle : s.fsm = .idle) (hw : w ≠ encode .display)
    (h : runWord w s = .next t) : t.fsm = .idle ∧ ∃ r, t.rsp = some r := by
  cases runWord_cases h with
  | display hd => exact absurd (encode_of_decode hd).symm hw
  | illegal _ _ ht | setpix _ _ _ _ _ _ ht | setpixOut _ _ _ _ _ ht | getpix _ _ _ _ _ ht | getpixOut _ _ _ _ ht
  | setrot _ _ _ _ ht | setrotBad _ _ _ ht => subst ht; exact ⟨hidle, _, rfl⟩

/-- R117, R121: the row of IDLE. -/
theorem transitions_of_idle {s : State} (hidle : s.fsm = .idle) :
    (∃ t, takeEvent (.cmd (encode .display)) s = .next t ∧ t.fsm = .sof ∧ t.txIdx = 0 ∧ t.rsp = s.rsp) ∧
    (∀ w, w ≠ encode .display → ∃ t r, takeEvent (.cmd w) s = .next t ∧ t.fsm = .idle ∧ t.rsp = some r) ∧
    takeEvent .beat s = .fault .notEnabled ∧
    takeEvent .sinkOk s = .next s ∧ (∀ c, takeEvent (.sinkFail c) s = .next s) := by
  refine ⟨⟨s.inFrame 0, ?display, rfl, rfl, rfl⟩, fun w hw => ?other, takeEvent_beat_of_no_offer (.inl hidle), ?ok,
    fun c => ?fail⟩
  case display => rw [takeEvent_cmd_of_idle _ hidle, runWord_ok _ _ (decode_encode .display), exec_display]
  case other =>
    obtain ⟨t, h⟩ := runWord_answers w s
    obtain ⟨hfsm, r, hrsp⟩ := runWord_answers_at_once hidle hw h
    exact ⟨t, r, (takeEvent_cmd_of_idle w hidle).trans h, hfsm, hrsp⟩
  case ok => exact takeEvent_verdict_of_idle { Pins.quiet with resOk := true } hidle
  case fail => exact takeEvent_verdict_of_idle { Pins.quiet with resCause := c } hidle

/-- Settles O48: the table cell by cell, each from the equation of its event. -/
theorem transitionTable : Obligations.TransitionTable := by
  intro s
  refine ⟨transitions_of_idle, fun hbusy w => takeEvent_cmd_of_busy w hbusy, fun hf => ?marker, fun hf hlt => ?payload,
    fun hf hlast => ?lastByte, fun hf => takeEvent_beat_of_no_offer (.inr hf), fun hreal hoffer => ?early,
    fun hf => ?success, fun hreal hbusy c => ?failure, fun strap => ?reset⟩
  case marker => exact ⟨_, (takeEvent_beat (.inl hf)).trans (takeBeat_of_sof hf), rfl, rfl, by simp⟩
  case payload => exact ⟨_, (takeEvent_beat (.inr hf)).trans (takeBeat_of_data hf hlt), rfl, rfl, by simp⟩
  case lastByte => exact ⟨_, (takeEvent_beat (.inr hf)).trans (takeBeat_of_last hf (by omega)), rfl, rfl, by simp⟩
  case early => exact ⟨_, takeEvent_sinkOk_of_offer hreal hoffer, rfl, rfl⟩
  case success => exact ⟨_, takeEvent_sinkOk_of_result hf, rfl, rfl⟩
  case failure => exact ⟨_, takeEvent_sinkFail_of_busy c hreal hbusy, rfl, rfl⟩
  case reset => exact ⟨s.applyReset strap, rfl, rfl, rfl⟩

/-! ### A frame that waits (R169) -/

/-- R169: a run in which the real sink does nothing, by induction on its steps. -/
theorem run_of_waiting (n : Nat) {s : State} (hreal : s.emulated = false) (hbusy : s.fsm ≠ .idle)
    (hpins : ∀ p ∈ s.inputs.take n, p.rst = false ∧ p.resValid = false ∧ p.txReady = false) :
    s.beats n = [] ∧ s.responses n = [] ∧ (s.after n).fsm = s.fsm ∧ (s.after n).txIdx = s.txIdx ∧
      (s.after n).cells = s.cells ∧ (s.after n).rotation = s.rotation := by
  induction n generalizing s with
  | zero => exact ⟨rfl, rfl, rfl, rfl, rfl, rfl⟩
  | succ n ih =>
    obtain ⟨⟨hrst, hverdict, hready⟩, hrest⟩ := pins_of_take_succ
      (P := fun p => p.rst = false ∧ p.resValid = false ∧ p.txReady = false) ⟨rfl, rfl, rfl⟩ hpins
    have h : step s = .next s.beginCycle := step_of_waiting hrst hreal hbusy hverdict hready
    rw [beats_succ h, responses_succ h, after_succ h]
    exact ih (s := s.beginCycle) hreal hbusy hrest

/-- Settles O51: `run_of_waiting`, where the framer's state says that the block is busy. -/
theorem frameWaitsForTheSink : Obligations.FrameWaitsForTheSink := by
  intro n s hreal hbusy hpins
  obtain ⟨hbeats, hresponses, hfsm, hidx, hcells, hrot⟩ := run_of_waiting n hreal hbusy hpins
  exact ⟨hbeats, hresponses, hfsm, hidx, hcells, hrot, by simpa [State.busy, hfsm] using hbusy⟩

/-! ### A DISPLAY with the emulated sink (R120) -/

section Emulated

variable {s : State} (hemu : s.emulated = true)
include hemu

/-- R112, R113, R120: the emulated sink takes the byte on offer, with no beat on the port. -/
theorem takeBeat_inFrame_of_emulated {k : Nat} (hk : k < 769) :
    takeBeat (s.inFrame k) = .next (s.inFrame (k + 1)) := by
  have hsend (b : Byte) : (s.inFrame k).sendBeat b = s.inFrame k := sendBeat_of_emulated (s.inFrame k) b hemu
  cases k with
  | zero =>
    rw [takeBeat_of_sof rfl, hsend]
    rfl
  | succ i =>
    have hfsm : (s.inFrame (i + 1)).fsm = .data := by rw [inFrame_succ s (by omega)]; rfl
    have hidx : (s.inFrame (i + 1)).txIdx.val = i := by rw [inFrame_succ s (by omega)]; rfl
    by_cases hlt : i < 767
    · rw [takeBeat_of_data hfsm (by omega), hsend, inFrame_succ s (by omega : i + 1 < 768)]
      simp only [hidx]
      rfl
    · obtain rfl : i = 767 := by omega
      rw [takeBeat_of_last hfsm (by omega), hsend]
      rfl

theorem step_inFrame_of_emulated {k : Nat} (hk : k < 769) (hrst : s.nextPins.rst = false) :
    step (s.inFrame k) = .next (s.beginCycle.inFrame (k + 1)) := by
  rw [step_of_takesByte (s := s.inFrame k) hrst (inFrame_offers hk) (.inl hemu)]
  exact takeBeat_inFrame_of_emulated (s := s.beginCycle) hemu hk

/-- R120: from `k` bytes on, the `j` that are left are taken in `j` steps, and the one after answers OK. -/
theorem run_inFrame_of_emulated (j : Nat) {k : Nat} (hk : k + j = 769)
    (hpins : ∀ p ∈ s.inputs.take (j + 1), p.rst = false) :
    State.Run (j + 1) (s.inFrame k) [] [0x00000000#32] (s.displayed (s.inputs.drop (j + 1))) := by
  induction j generalizing s k with
  | zero =>
    obtain ⟨hrst, -⟩ := pins_of_take_succ (P := fun p => p.rst = false) rfl hpins
    obtain rfl : k = 769 := hk
    have hstep : step (s.inFrame 769) = .next (s.displayed (s.inputs.drop 1)) := by
      rw [step_of_emulated_result (s := s.inFrame 769) hrst hemu rfl, List.drop_one]
      rfl
    exact State.Run.cons hstep (.zero _)
  | succ j ih =>
    obtain ⟨hrst, hrest⟩ := pins_of_take_succ (P := fun p => p.rst = false) rfl hpins
    have hrun := ih (s := s.beginCycle) (k := k + 1) hemu (by omega) hrest
    rw [beginCycle_inputs, List.drop_tail] at hrun
    exact State.Run.cons (step_inFrame_of_emulated hemu (by omega) hrst) hrun

end Emulated

/-- Settles O54: the accepting step, and the run over the 769 bytes and the emulated sink's verdict. -/
theorem emulatedDisplayAlwaysSucceeds : Obligations.EmulatedDisplayAlwaysSucceeds := by
  intro s w hemu hacc hdec hpins
  have hstart : step s = .next (s.beginCycle.inFrame 0) := by
    rw [step_of_accepts hacc, runWord_ok _ _ hdec, exec_display]
  obtain ⟨-, hrest⟩ := pins_of_take_succ (P := fun p => p.rst = false) rfl hpins
  have hframe := run_inFrame_of_emulated (s := s.beginCycle) hemu 769 rfl hrest
  obtain ⟨hbeats, hresponses, hafter⟩ := State.Run.cons hstart hframe
  rw [hafter]
  exact ⟨hbeats, hresponses, rfl, rfl, rfl, rfl⟩

end Sys2Proof.Machine
end

/-! PROOFS. What a command that fails leaves behind (60_exceptions.md R141, R147 to R149). -/

namespace Sys2Proof.Machine

/-! ### A coordinate out of range (R141) -/

/-- The state with the condition raised, its response written out. -/
theorem raise_indexOutOfBounds (s : State) : s.raise .indexOutOfBounds = { s with rsp := some 0x01000000#32 } := rfl

/-- Settles O16: with either coordinate out of range no cell is addressed, so both commands raise the condition. -/
theorem outOfRangeCoordinatesRaise : Obligations.OutOfRangeCoordinatesRaise := by
  intro s x y pix hout
  have hcell : s.cellFor x y = none := cellFor_none s x y hout
  rw [exec_setpix_of_out pix hcell, exec_getpix_of_out hcell, raise_indexOutOfBounds]
  exact ⟨rfl, rfl⟩

/-! ### No step stops the block (R147, R148) -/

/-- Settles O8: a cycle without an event answers, and so does every event that the pins amount to, which is enabled. -/
theorem everyStepAnswersNext : Obligations.EveryStepAnswersNext := step_answers

/-! ### Failure in the accepting step (R147 to R149) -/

/-- R147: a word answered with a failure raised its condition, which writes nothing but the response. A word that succeeds
answers with status 0, and a DISPLAY that starts its frame does not answer yet. -/
theorem eq_of_runWord_fails {w : CmdWord} {s t : State} {r : RspWord} (h : runWord w s = .next t) (hs : s.rsp = none)
    (hr : t.rsp = some r) (hfail : rspStatus r ≠ 0x00#8) : t = { s with rsp := some r } := by
  cases runWord_cases h with
  | illegal _ _ ht | setpixOut _ _ _ _ _ ht | getpixOut _ _ _ _ ht | setrotBad _ _ _ ht =>
    subst ht; cases hr; rfl
  | setpix _ _ _ _ _ _ ht | getpix _ _ _ _ _ ht | setrot _ _ _ _ ht =>
    subst ht; cases hr; exact absurd (rspStatus_responseWord statusOk _) hfail
  | display _ ht => subst ht; simp [hs] at hr

/-- Settles O24: the accepting step runs the word on the state with its sample taken off and its outputs gone. -/
theorem failedCommandsLeaveNoTrace : Obligations.FailedCommandsLeaveNoTrace := by
  intro s t w r hacc hstep hr hfail
  rw [step_of_accepts hacc] at hstep
  exact eq_of_runWord_fails hstep rfl hr hfail

end Sys2Proof.Machine

/-! PROOFS. When the block looks at the mode strap (70_reset_and_hazards.md R161; 10_state.md R30). -/

namespace Sys2Proof.Machine

/-- R160, R161: the mode after a step, Reset's or another. -/
theorem step_emulated_eq_ite {s t : State} (h : step s = .next t) :
    t.emulated = if s.nextPins.rst then s.nextPins.emulated else s.emulated := by
  rcases hrst : s.nextPins.rst with _ | _
  · exact step_emulated h hrst
  · rw [step_of_rst hrst] at h
    cases h
    rfl

/-- R161: only the step that Reset takes carries the strap; acceptance and the sink read other pins. -/
theorem eventOf_of_no_reset {p : Pins} {s : State} (strap : Bool) (hrst : p.rst = false) :
    eventOf p s = eventOf { p with emulated := strap } s := by
  have hlow : ¬ p.rst = true := by simp [hrst]
  unfold eventOf
  rw [if_neg hlow, if_neg hlow]
  rfl

/-- Settles O13: the mode and the parameters after a step, and the samples that amount to the same step. -/
theorem strapIsSampledByResetOnly : Obligations.StrapIsSampledByResetOnly :=
  ⟨fun _ _ h => ⟨step_emulated_eq_ite h, step_config h⟩,
    fun _ _ rest strap hrst => step_congr rest (eventOf_of_no_reset strap hrst)⟩

end Sys2Proof.Machine
